-- ==== Sys2Proof/Word.lean ====
section
/-! DEFINITION. The word types of the block (00_scope.md R8, R9): bit 0 is the least significant bit, every value is unsigned. -/

namespace Sys2Proof

/-- A data byte, a checksum (R8 `DATA_W`). -/
abbrev Byte := BitVec 8

/-- A 16-bit value: the marker, the length field, an address, an immediate (R8, 30_encoding.md R72). -/
abbrev Half := BitVec 16

/-- A response's data, a position counter (R8). -/
abbrev Word := BitVec 32

/-- A command word, `{OP[23:16], IMM[15:0]}` (30_encoding.md R71). -/
abbrev CmdWord := BitVec 24

end Sys2Proof
end

