-- ==== Sys2Proof/Syntax.lean ====
section
/-! DEFINITION. The commands of the block, one constructor per row of spec/opcode_table.json (30_encoding.md R73). -/

namespace Sys2Proof

/-- A command with its operand: a byte `b` in form B, a 16-bit `h` in form H, none in form N (30_encoding.md R72). -/
inductive Instr where
  /-- `NOP` (42_host_access.md R160). -/
  | nop
  /-- `CRC_INIT b` (40_checksum.md R104). -/
  | crcInit (b : Byte)
  /-- `CRC_BYTE b` (40_checksum.md R105). -/
  | crcByte (b : Byte)
  /-- `SET_SYNC h` (41_scanner.md R130). -/
  | setSync (h : Half)
  /-- `SCAN_START h` (41_scanner.md R131). -/
  | scanStart (h : Half)
  /-- `SCAN_BYTE b` (41_scanner.md R132). -/
  | scanByte (b : Byte)
  /-- `PAYLOAD_READ h` (42_host_access.md R161). -/
  | payloadRead (h : Half)
  /-- `REG_READ h` (42_host_access.md R162). -/
  | regRead (h : Half)
  deriving DecidableEq, Repr

end Sys2Proof
end

