-- ==== Sys2Proof/Machine/Operands.lean ====
section
/-! DEFINITION. The operand forms N, B and H of 30_encoding.md R72, and the halves of a 16-bit value. -/

namespace Sys2Proof.Machine

/-- Bits 15:8 of a 16-bit value: the byte that comes first on the wire (20_memory.md R57). -/
def hiByte (h : Half) : Byte := h.extractLsb' 8 8

/-- Bits 7:0 of a 16-bit value: the byte that comes second on the wire (20_memory.md R57). -/
def loByte (h : Half) : Byte := h.extractLsb' 0 8

/-- `{hi, lo}`: two wire bytes as one 16-bit value, the first in bits 15:8 (00_scope.md R9, 20_memory.md R57). -/
def pairBytes (hi lo : Byte) : Half := hi ++ lo

/-- The three operand forms of R72. -/
inductive Form where
  /-- No operand: `IMM = 0x0000`. -/
  | N
  /-- One byte: `IMM[15:8] = 0x00`. -/
  | B
  /-- One 16-bit value: any `IMM`. -/
  | H
  deriving DecidableEq, Repr

/-- The legal `IMM` of a form (R72). -/
def immLegal (f : Form) (imm : Half) : Bool :=
  match f with
  | .N => imm == 0
  | .B => hiByte imm == 0
  | .H => true

/-- The form of a command (R73). -/
def formOf (i : Instr) : Form :=
  match i with
  | .nop => .N
  | .crcInit _ => .B
  | .crcByte _ => .B
  | .setSync _ => .H
  | .scanStart _ => .H
  | .scanByte _ => .B
  | .payloadRead _ => .H
  | .regRead _ => .H

/-- The `IMM` field that carries a command's operand: `zext_16(operand)`, 0 where there is none (R72, R78). -/
def immOf (i : Instr) : Half :=
  match i with
  | .nop => 0
  | .crcInit b => pairBytes 0 b
  | .crcByte b => pairBytes 0 b
  | .setSync h => h
  | .scanStart h => h
  | .scanByte b => pairBytes 0 b
  | .payloadRead h => h
  | .regRead h => h

end Sys2Proof.Machine
end

