-- ==== Sys2Proof/WellFormed.lean ====
section
/-! DEFINITION. When a command, and when a command word's fields, are well formed (30_encoding.md R72, R74, R75).
An operand's width is its type, so an `Instr` cannot hold an operand its form has no room for; what can be ill formed is
the raw pair of fields `OP`, `IMM` a host may send. -/

namespace Sys2Proof

/-- The raw fields of a command word (30_encoding.md R71), before any check. -/
structure RawCommand where
  op  : Byte
  imm : Half
  deriving DecidableEq, Repr

/-- The form of each defined opcode; none for the 248 undefined ones (R73, R74). -/
def RawCommand.form (c : RawCommand) : Option Machine.Form :=
  if c.op = 0x00 then some .N
  else if c.op = 0x01 ∨ c.op = 0x02 ∨ c.op = 0x12 then some .B
  else if c.op = 0x10 ∨ c.op = 0x11 ∨ c.op = 0x20 ∨ c.op = 0x21 then some .H
  else none

/-- The three checks of R75 on raw fields: a defined opcode, form N's `IMM`, form B's `IMM[15:8]`. -/
def RawCommand.wellFormed (c : RawCommand) : Bool :=
  match c.form with
  | none => false
  | some f => Machine.immLegal f c.imm

/-- A command is well formed when the `IMM` that carries its operand is legal for its form (R72). -/
def Instr.wellFormed (i : Instr) : Bool := Machine.immLegal (Machine.formOf i) (Machine.immOf i)

end Sys2Proof
end

