-- ==== Sys2Proof/Decode.lean ====
section
/-! DEFINITION. The decoder, total on all 2^24 words and rejecting by name, the encoder, and the opcode table as rows
(30_encoding.md R71 to R75, R78). -/

namespace Sys2Proof

/-- Why a word is illegal. The block itself answers `ERR_ILLEGAL` for each (R75); the names are the model's (log 12). -/
inductive IllegalWord where
  /-- `OP` is none of the eight opcodes (R74). -/
  | undefinedOpcode (op : Byte)
  /-- Form N with `IMM != 0` (R75). -/
  | immNotZero (imm : Half)
  /-- Form B with `IMM[15:8] != 0` (R75). -/
  | immHighNotZero (imm : Half)
  deriving DecidableEq, Repr

/-- `OP = w[23:16]` (R71). -/
def wordOp (w : CmdWord) : Byte := w.extractLsb' 16 8

/-- `IMM = w[15:0]` (R71). -/
def wordImm (w : CmdWord) : Half := w.extractLsb' 0 16

/-- Form N: the command, if `IMM = 0` (R72, R75). -/
def decodeN (i : Instr) (imm : Half) : Except IllegalWord Instr :=
  if Machine.immLegal .N imm then .ok i else .error (.immNotZero imm)

/-- Form B: the command on `b = IMM[7:0]`, if `IMM[15:8] = 0` (R72, R75). -/
def decodeB (k : Byte → Instr) (imm : Half) : Except IllegalWord Instr :=
  if Machine.immLegal .B imm then .ok (k (Machine.loByte imm)) else .error (.immHighNotZero imm)

/-- Form H: the command on `h = IMM` (R72). -/
def decodeH (k : Half → Instr) (imm : Half) : Except IllegalWord Instr := .ok (k imm)

/-- The decoder of R75 on the word's two fields; the opcodes are R73's. -/
def decodeFields (op : Byte) (imm : Half) : Except IllegalWord Instr :=
  if op = 0x00 then decodeN .nop imm
  else if op = 0x01 then decodeB .crcInit imm
  else if op = 0x02 then decodeB .crcByte imm
  else if op = 0x10 then decodeH .setSync imm
  else if op = 0x11 then decodeH .scanStart imm
  else if op = 0x12 then decodeB .scanByte imm
  else if op = 0x20 then decodeH .payloadRead imm
  else if op = 0x21 then decodeH .regRead imm
  else .error (.undefinedOpcode op)

/-- The decoder, total on all 2^24 words (R75). -/
def decode (w : CmdWord) : Except IllegalWord Instr := decodeFields (wordOp w) (wordImm w)

/-- The opcode of a command (R73). -/
def opcodeOf (i : Instr) : Byte :=
  match i with
  | .nop => 0x00
  | .crcInit _ => 0x01
  | .crcByte _ => 0x02
  | .setSync _ => 0x10
  | .scanStart _ => 0x11
  | .scanByte _ => 0x12
  | .payloadRead _ => 0x20
  | .regRead _ => 0x21

/-- The encoder: `{OP, zext_16(operand)}` (R71, R78). -/
def encode (i : Instr) : CmdWord := opcodeOf i ++ Machine.immOf i

/-- The decoder's reading of a word numbered as the opcode table numbers it: a command is one 24-bit value, bit 0 its
least significant bit; bits from `nbits` on are 0. -/
def decodeTableWord (nbits w : Nat) : Option Instr :=
  match decode (BitVec.ofNat 24 (w % 2 ^ nbits)) with
  | .ok i => some i
  | .error _ => none

/-- A row of the opcode table: the words `w` with `w & mask = pattern` are its command's. -/
structure OpcodeRow where
  mnemonic : String
  form     : Machine.Form
  pattern  : CmdWord
  mask     : CmdWord
  deriving DecidableEq, Repr

/-- The opcode table (R73), its `match` and `mask` columns as spec/opcode_table.json gives them. -/
def opcodeTable : List OpcodeRow := [
  ⟨"NOP",          .N, 0x000000, 0xFFFFFF⟩,
  ⟨"CRC_INIT",     .B, 0x010000, 0xFFFF00⟩,
  ⟨"CRC_BYTE",     .B, 0x020000, 0xFFFF00⟩,
  ⟨"SET_SYNC",     .H, 0x100000, 0xFF0000⟩,
  ⟨"SCAN_START",   .H, 0x110000, 0xFF0000⟩,
  ⟨"SCAN_BYTE",    .B, 0x120000, 0xFFFF00⟩,
  ⟨"PAYLOAD_READ", .H, 0x200000, 0xFF0000⟩,
  ⟨"REG_READ",     .H, 0x210000, 0xFF0000⟩]

/-- A word is one of a row's words. -/
def OpcodeRow.covers (r : OpcodeRow) (w : CmdWord) : Bool := w &&& r.mask == r.pattern

/-- The mnemonic of a command (R73). -/
def mnemonicOf (i : Instr) : String :=
  match i with
  | .nop => "NOP"
  | .crcInit _ => "CRC_INIT"
  | .crcByte _ => "CRC_BYTE"
  | .setSync _ => "SET_SYNC"
  | .scanStart _ => "SCAN_START"
  | .scanByte _ => "SCAN_BYTE"
  | .payloadRead _ => "PAYLOAD_READ"
  | .regRead _ => "REG_READ"

end Sys2Proof
end

