-- ==== Sys2Proof/Config.lean ====
section
/-! DEFINITION. The block's parameters, with the values of 00_scope.md R8; the two R8 leaves OPEN are constants without a body. -/

namespace Sys2Proof.Config

/-- `SYNC_LEN`, the marker's length in bytes (R8). -/
def syncLen : Nat := 2

/-- `HDR_LEN`, the header's length in bytes (R8). -/
def hdrLen : Nat := 6

/-- `SEED`, the checksum seed of every frame (R8, 40_checksum.md R102). -/
def seed : Byte := 0xFF

/-- `SYNC_RESET`, the marker after reset (R8). -/
def syncReset : Half := 0x1ACF

/-- `PAYLOAD_CAP`, the bytes of `PBUF` (R8, 20_memory.md R50). -/
def payloadCap : Nat := 65535

/-- `CMD_CYCLES`, clock cycles per command at the pin level: OPEN, read by no rule (R8, 70_reset_and_hazards.md R206). -/
opaque cmdCycles : Nat

/-- `INSTANCES`, independent blocks on a platform: OPEN (R8, 20_memory.md R64). -/
opaque instances : Nat

end Sys2Proof.Config
end

