-- ==== Sys2Proof/Machine/State.lean ====
section
/-! DEFINITION. The state of the block (10_state.md R22 to R35, 20_memory.md R50), the host's inputs, the response lines, and reset. -/

namespace Sys2Proof.Machine

/-- The scanner's state `ST` (10_state.md R23). Encoding 7 is held by no reachable state (93 I5, log 5). -/
inductive ScanState where
  /-- 0: searching for `M0`. -/
  | hunt
  /-- 1: the last consumed byte equals `M0`. -/
  | sync1
  /-- 2: the marker has matched; `HIDX` header bytes have been received. -/
  | hdr
  /-- 3: the header is complete, payload bytes are awaited. -/
  | payload
  /-- 4: the checksum byte is awaited. -/
  | check
  /-- 5: the checksum byte matched. -/
  | doneFound
  /-- 6: the checksum byte did not match. -/
  | doneMismatch
  deriving DecidableEq, Repr

/-- A response's code (30_encoding.md R76). -/
inductive RspCode where
  /-- 0: the command executed. -/
  | ok
  /-- 1: a byte presented in a final state was not consumed. -/
  | ignored
  /-- 2: an illegal word, or `REG_READ` of no register. -/
  | errIllegal
  /-- 3: `PAYLOAD_READ` with no Found frame or an index not below `FLEN`. -/
  | errRange
  deriving DecidableEq, Repr

/-- A response `(code, data)` (30_encoding.md R76). -/
structure Response where
  code : RspCode
  data : Word
  deriving DecidableEq, Repr

/-- What the host can do to the block between two steps (00_scope.md R7, 70_reset_and_hazards.md R202). -/
inductive HostInput where
  /-- A command word on `cmd[23:0]` with `cmd_valid` (30_encoding.md R70). -/
  | command (w : CmdWord)
  /-- `rst` asserted; `presented` is a command word that stands on `cmd` at the same time (R202, log 8). -/
  | reset (presented : Option CmdWord)
  deriving DecidableEq, Repr

/-- The payload buffer `PBUF` (20_memory.md R50): index and byte, indices strictly rising, no entry equal to what an
unlisted index reads as (log 4). -/
abbrev Memory := List Host.Cell

/-- What stops the model. -/
inductive Fault where
  /-- A `MemWrite` to an index that names no byte of `PBUF` (20_memory.md R50: index 65535). Raised by `SCAN_BYTE` in
  PAYLOAD with `PCNT = 65535`, which no reachable state is (41_scanner.md R136). Safe (log 7). -/
  | noSuchByte
  deriving DecidableEq, Repr

/-- What the model refuses. -/
inductive Refusal where
  /-- A command without a meaning yet; raised by no arm of `exec`. Safe. -/
  | notModelled (mnemonic : String)
  deriving DecidableEq, Repr

/-- Everything the spec gives the block (10_state.md R22), and the model's two fields for its host side. -/
structure State where
  /-- `CRC`, the standalone checksum unit's `running8` (R35). -/
  crc    : Byte
  /-- `SYNC`, the marker, `M0` in bits 15:8 (R25). -/
  sync   : Half
  /-- `FBASE`, the payload base address of the scan (R26). -/
  fbase  : Half
  /-- `FRSV`, the two reserved header bytes (R27). -/
  frsv   : Half
  /-- `FLEN`, the declared payload length (R28). -/
  flen   : Half
  /-- `PCNT`, payload bytes received (R29). -/
  pcnt   : Half
  /-- `SCRC`, the scanner's running checksum (R30). -/
  scrc   : Byte
  /-- `RXCRC`, the received checksum byte (R31). -/
  rxcrc  : Byte
  /-- `POS`, bytes consumed since the scan began, modulo 2^32 (R32). -/
  pos    : Word
  /-- `FSTART`, the offset of the marker's first byte, modulo 2^32 (R33). -/
  fstart : Word
  /-- `HIDX`, header bytes matched so far (R34). -/
  hidx   : BitVec 3
  /-- `ST`, the scanner's state (R23). -/
  st     : ScanState
  /-- `PBUF`, the payload buffer (20_memory.md R50). -/
  pbuf   : Memory
  /-- The model's own: the host's inputs still to come, the next one first (log 1). -/
  input  : List HostInput
  /-- The model's own: the response of the last step, none where it gave none (log 2). -/
  rsp    : Option Response
  deriving DecidableEq, Repr

/-- The block right after reset (70_reset_and_hazards.md R200): every register at its value, nothing listed in `PBUF`
(unspecified there, log 4), no input pending and no response given. -/
def State.reset : State where
  crc    := 0xFF
  sync   := Config.syncReset
  fbase  := 0x0000
  frsv   := 0x0000
  flen   := 0x0000
  pcnt   := 0x0000
  scrc   := Config.seed
  rxcrc  := 0x00
  pos    := 0
  fstart := 0
  hidx   := 0
  st     := .hunt
  pbuf   := []
  input  := []
  rsp    := none

end Sys2Proof.Machine
end

