-- ==== Sys2Proof/Machine/Flags.lean ====
section
/-! DEFINITION. The block has no condition codes (10_state.md R36); its one status is `STATUS`, computed from `ST` (R24),
and the output `done` (R39). -/

namespace Sys2Proof.Machine

/-- The encoding of `ST` (R23). -/
def stCode (st : ScanState) : BitVec 3 :=
  match st with
  | .hunt => 0
  | .sync1 => 1
  | .hdr => 2
  | .payload => 3
  | .check => 4
  | .doneFound => 5
  | .doneMismatch => 6

/-- `STATUS.REASON`, bits 5:4 (R24): 0 `FRAME_NOT_FOUND`, 1 `FRAME_TRUNCATED`, 2 `FOUND`, 3 `CHECKSUM_MISMATCH`. -/
def statusReason (st : ScanState) : BitVec 2 :=
  match st with
  | .hunt => 0
  | .sync1 => 0
  | .hdr => 1
  | .payload => 1
  | .check => 1
  | .doneFound => 2
  | .doneMismatch => 3

/-- `STATUS.RESULT`, bits 7:6, from `REASON` (R24): 0 `NotFound`, 1 `Truncated`, 2 `Found`. -/
def statusResult (st : ScanState) : BitVec 2 :=
  if statusReason st = 1 then 1 else if statusReason st = 2 then 2 else 0

/-- The two final states (R23). -/
def isFinal (st : ScanState) : Bool :=
  match st with
  | .doneFound => true
  | .doneMismatch => true
  | .hunt => false
  | .sync1 => false
  | .hdr => false
  | .payload => false
  | .check => false

/-- `STATUS.DONE`, bit 8 (R24). -/
def statusDone (st : ScanState) : BitVec 1 := if isFinal st then 1 else 0

/-- `STATUS` as `REG_READ` gives it: `{0[31:9], DONE, RESULT, REASON, 0, STATE}` (R24). -/
def statusWord (st : ScanState) : Word :=
  (0 : BitVec 23) ++ statusDone st ++ statusResult st ++ statusReason st ++ (0 : BitVec 1) ++ stCode st

/-- The output `done`, a level equal to `STATUS.DONE` (R39). -/
def doneOutput (s : State) : BitVec 1 := statusDone s.st

/-- The encoding of a response's code (30_encoding.md R76). -/
def rspCodeBits (c : RspCode) : BitVec 2 :=
  match c with
  | .ok => 0
  | .ignored => 1
  | .errIllegal => 2
  | .errRange => 3

end Sys2Proof.Machine
end

