-- ==== Sys2Proof/Machine/Ops.lean ====
section
/-! DEFINITION. The named operations over `PBUF`, the registers and the response, and the whole-block events: an error
response, a restarted scan, reset, a step with nothing to do. -/

namespace Sys2Proof.Machine

/-! ### The payload buffer (20_memory.md R50) -/

/-- What an index of `PBUF` that nothing has written since reset reads as. The spec leaves it unspecified
(70_reset_and_hazards.md R200, 93 I3 "any value"). DESIGN CHOICE 0, unsafe (log 4). -/
def unwrittenByte : Byte := 0

/-- An index that names a byte of `PBUF`: 0 to 65534 (R50). -/
def byteExists (i : Nat) : Bool := i < Config.payloadCap

/-- `PBUF[i]`. -/
def Memory.read (m : Memory) (i : Nat) : Byte :=
  match m with
  | [] => unwrittenByte
  | (j, v) :: rest => if j = i then v else Memory.read rest i

/-- `PBUF[i] <- v`, in canonical form. -/
def Memory.write (m : Memory) (i : Nat) (v : Byte) : Memory :=
  match m with
  | [] => if v = unwrittenByte then [] else [(i, v)]
  | (j, w) :: rest =>
    if i < j then (if v = unwrittenByte then (j, w) :: rest else (i, v) :: (j, w) :: rest)
    else if i = j then (if v = unwrittenByte then rest else (i, v) :: rest)
    else (j, w) :: Memory.write rest i v

/-- Every index is at least `lo` and names a byte, indices rise strictly, no entry is what an unlisted index reads as. -/
def Memory.wfFrom (lo : Nat) (m : Memory) : Bool :=
  match m with
  | [] => true
  | (j, v) :: rest => decide (lo ≤ j) && byteExists j && decide (v ≠ unwrittenByte) && Memory.wfFrom (j + 1) rest

/-- The canonical form of `PBUF`. -/
def Memory.wf (m : Memory) : Bool := Memory.wfFrom 0 m

/-- `MemWrite(i, 1, v)` (R50); an index that names no byte faults (log 7). -/
def memWrite (i : Nat) (v : Byte) (s : State) : Host.Outcome State Fault Refusal :=
  if byteExists i then .next { s with pbuf := s.pbuf.write i v } else .fault .noSuchByte

/-- `MemRead(i, 1)` (R50). Its one caller, `PAYLOAD_READ`, asks only below `FLEN`, so for an index that names a byte. -/
def memRead (i : Nat) (s : State) : Byte := s.pbuf.read i

/-! ### Responses (30_encoding.md R76) -/

/-- `respond(code, data)` (00_scope.md R10). -/
def respond (code : RspCode) (data : Word) (s : State) : State := { s with rsp := some ⟨code, data⟩ }

/-- `raise E()`: the command changes no state and its response is `(E, 0)` (00_scope.md R10, 60_exceptions.md R180).
This is all there is to an exception: no trap entry, no saved state, no return (R186, R187). -/
def raiseError (e : RspCode) (s : State) : State := respond e 0 s

/-! ### Registers (10_state.md R22) -/

/-- The registers that have a number (R22). -/
inductive RegName where
  | CRC | STATUS | SYNC | FBASE | FRSV | FLEN | PCNT | SCRC | RXCRC | POS | FSTART | HIDX
  deriving DecidableEq, Repr

/-- The register of a number; none from `0x000C` on (R22). -/
def regOfNumber (n : Half) : Option RegName :=
  match n.toNat with
  | 0x0 => some .CRC
  | 0x1 => some .STATUS
  | 0x2 => some .SYNC
  | 0x3 => some .FBASE
  | 0x4 => some .FRSV
  | 0x5 => some .FLEN
  | 0x6 => some .PCNT
  | 0x7 => some .SCRC
  | 0x8 => some .RXCRC
  | 0x9 => some .POS
  | 0xA => some .FSTART
  | 0xB => some .HIDX
  | _ => none

/-- The number of a register (R22). -/
def regNumber (r : RegName) : Half :=
  match r with
  | .CRC => 0x0
  | .STATUS => 0x1
  | .SYNC => 0x2
  | .FBASE => 0x3
  | .FRSV => 0x4
  | .FLEN => 0x5
  | .PCNT => 0x6
  | .SCRC => 0x7
  | .RXCRC => 0x8
  | .POS => 0x9
  | .FSTART => 0xA
  | .HIDX => 0xB

/-- `zext_32(R.NAME)`; `STATUS` as R24 computes it (R22, 42_host_access.md R162). -/
def readReg (r : RegName) (s : State) : Word :=
  match r with
  | .CRC => s.crc.setWidth 32
  | .STATUS => statusWord s.st
  | .SYNC => s.sync.setWidth 32
  | .FBASE => s.fbase.setWidth 32
  | .FRSV => s.frsv.setWidth 32
  | .FLEN => s.flen.setWidth 32
  | .PCNT => s.pcnt.setWidth 32
  | .SCRC => s.scrc.setWidth 32
  | .RXCRC => s.rxcrc.setWidth 32
  | .POS => s.pos
  | .FSTART => s.fstart
  | .HIDX => s.hidx.setWidth 32

/-- `M0 = SYNC[15:8]` (R25). -/
def markerFirst (s : State) : Byte := hiByte s.sync

/-- `M1 = SYNC[7:0]` (R25). -/
def markerSecond (s : State) : Byte := loByte s.sync

/-! ### Whole-block events -/

/-- The scanner registers `SCAN_START` and `SET_SYNC` set (41_scanner.md R130, R131); `SYNC` and `FBASE` are their callers'. -/
def restartScan (s : State) : State :=
  { s with
    st := .hunt, hidx := 0, frsv := 0, flen := 0, pcnt := 0,
    scrc := Config.seed, rxcrc := 0, pos := 0, fstart := 0 }

/-- `POS <- (POS + 1) mod 2^32` (10_state.md R21, R32). -/
def advancePos (s : State) : State := { s with pos := s.pos + 1 }

/-- Reset sets every register (70_reset_and_hazards.md R200) and empties the model's `PBUF` (log 4); there is no response
(R202), and what the host has still to send stays to come. -/
def resetBlock (s : State) : State := { State.reset with input := s.input }

/-- A step with no input: the block never acts without a command (42_host_access.md R164), so only the response lines
fall back to none (log 3). -/
def idle (s : State) : State := { s with rsp := none }

/-- The next state of an outcome, if it is one: for statements and tests. -/
def nextOf (o : Host.Outcome State Fault Refusal) : Option State :=
  match o with
  | .next s => some s
  | .fault _ => none
  | .refused _ => none

end Sys2Proof.Machine
end

