-- ==== Sys2Proof/Machine/HostAccess.lean ====
section
/-! DEFINITION. The host access commands `NOP` (42_host_access.md R160), `PAYLOAD_READ` (R161) and `REG_READ` (R162), and the
frame a host reads out with them (R163). -/

namespace Sys2Proof.Machine

/-- `NOP` (R160). -/
def execNop (s : State) : Host.Outcome State Fault Refusal := .next (respond .ok 0 s)

/-- A payload byte is exposed: a Found frame is held and the index is below `FLEN` (R161, 20_memory.md R51). -/
def payloadReadable (h : Half) (s : State) : Bool := s.st == .doneFound && decide (h.toNat < s.flen.toNat)

/-- `PAYLOAD_READ h` (R161). -/
def execPayloadRead (h : Half) (s : State) : Host.Outcome State Fault Refusal :=
  if payloadReadable h s then .next (respond .ok ((memRead h.toNat s).setWidth 32) s)
  else .next (raiseError .errRange s)

/-- `REG_READ h` (R162). -/
def execRegRead (h : Half) (s : State) : Host.Outcome State Fault Refusal :=
  match regOfNumber h with
  | some r => .next (respond .ok (readReg r s) s)
  | none => .next (raiseError .errIllegal s)

/-- SUN's `ValidatedFrame` (R163). -/
structure ValidatedFrame where
  payloadBaseAddress : Half
  payload : List Byte
  deriving DecidableEq, Repr

/-- The frame a Found scan exposes: `FBASE` and the bytes `PAYLOAD_READ 0` to `PAYLOAD_READ (FLEN - 1)` (R163). -/
def validatedFrame (s : State) : Option ValidatedFrame :=
  if s.st = .doneFound then some ⟨s.fbase, (List.range s.flen.toNat).map (fun i => memRead i s)⟩ else none

end Sys2Proof.Machine
end

