-- ==== Sys2Proof/Machine/Scanner.lean ====
section
/-! DEFINITION. The scanner commands `SET_SYNC` (41_scanner.md R130), `SCAN_START` (R131) and `SCAN_BYTE` (R132) with its
transitions (R133 to R138). Each transition reads the state at the command's start and writes all of it at once (00_scope.md R10). -/

namespace Sys2Proof.Machine

/-- `SET_SYNC h` (R130): load the marker and restart the scan; `FBASE` keeps its value. -/
def execSetSync (h : Half) (s : State) : Host.Outcome State Fault Refusal :=
  .next (respond .ok 0 (restartScan { s with sync := h }))

/-- `SCAN_START h` (R131): begin a new scan with payload base address `h`. -/
def execScanStart (h : Half) (s : State) : Host.Outcome State Fault Refusal :=
  .next (respond .ok 0 (restartScan { s with fbase := h }))

/-- The byte is consumed: `POS` advances and the response is `OK` (R132). -/
def consumed (s : State) : State := respond .ok 0 (advancePos s)

/-- HUNT (R133). -/
def scanHunt (b : Byte) (s : State) : State :=
  if b = markerFirst s then consumed { s with st := .sync1, hidx := 1 } else consumed s

/-- SYNC1 (R134): `b = M1` is tested first. -/
def scanSync1 (b : Byte) (s : State) : State :=
  if b = markerSecond s then
    consumed { s with
      st := .hdr, hidx := 2, fstart := s.pos - 1,
      scrc := crc8Step (crc8Step Config.seed (markerFirst s)) (markerSecond s) }
  else if b = markerFirst s then consumed s
  else consumed { s with st := .hunt, hidx := 0 }

/-- The header field that byte `HIDX` of the frame goes to (R135). An `HIDX` outside 2 to 5 has no arm there and writes
no field; no reachable state in HDR holds one (log 6). -/
def headerField (b : Byte) (s : State) : State :=
  match s.hidx.toNat with
  | 2 => { s with frsv := pairBytes b (loByte s.frsv) }
  | 3 => { s with frsv := pairBytes (hiByte s.frsv) b }
  | 4 => { s with flen := pairBytes b (loByte s.flen) }
  | 5 => { s with
      flen := pairBytes (hiByte s.flen) b, pcnt := 0,
      st := if pairBytes (hiByte s.flen) b = 0 then .check else .payload }
  | _ => s

/-- HDR (R135). -/
def scanHdr (b : Byte) (s : State) : State :=
  consumed { headerField b s with scrc := crc8Step s.scrc b, hidx := s.hidx + 1 }

/-- PAYLOAD (R136): the byte goes to `PBUF[PCNT]`. -/
def scanPayload (b : Byte) (s : State) : Host.Outcome State Fault Refusal :=
  memWrite s.pcnt.toNat b (consumed { s with
    scrc := crc8Step s.scrc b,
    st := if s.pcnt + 1 = s.flen then .check else s.st,
    pcnt := s.pcnt + 1 })

/-- CHECK (R137): `b` is the received checksum byte; it is compared, not folded in. -/
def scanCheck (b : Byte) (s : State) : State :=
  consumed { s with rxcrc := b, st := if b = s.scrc then .doneFound else .doneMismatch }

/-- A final state (R138): no state changes, the response is `IGNORED`. -/
def scanIgnored (s : State) : State := respond .ignored 0 s

/-- `SCAN_BYTE b` (R132): the transition of the current state. -/
def execScanByte (b : Byte) (s : State) : Host.Outcome State Fault Refusal :=
  match s.st with
  | .hunt => .next (scanHunt b s)
  | .sync1 => .next (scanSync1 b s)
  | .hdr => .next (scanHdr b s)
  | .payload => scanPayload b s
  | .check => .next (scanCheck b s)
  | .doneFound => .next (scanIgnored s)
  | .doneMismatch => .next (scanIgnored s)

end Sys2Proof.Machine
end

