-- ==== Sys2Proof/Machine/Dispatch.lean ====
section
/-! DEFINITION. One meaning per command (30_encoding.md R73). -/

namespace Sys2Proof.Machine

def exec (i : Instr) (s : State) : Host.Outcome State Fault Refusal :=
  match i with
  | .nop => Sys2Proof.Machine.execNop s
  | .crcInit b => Sys2Proof.Machine.execCrcInit b s
  | .crcByte b => Sys2Proof.Machine.execCrcByte b s
  | .setSync h => Sys2Proof.Machine.execSetSync h s
  | .scanStart h => Sys2Proof.Machine.execScanStart h s
  | .scanByte b => Sys2Proof.Machine.execScanByte b s
  | .payloadRead h => Sys2Proof.Machine.execPayloadRead h s
  | .regRead h => Sys2Proof.Machine.execRegRead h s

end Sys2Proof.Machine
end

