-- ==== Sys2Proof/Machine/Command.lean ====
section
/-! DEFINITION. What the block does with a command word the host presents, and with each other input (30_encoding.md R70, R75;
70_reset_and_hazards.md R200, R202). -/

namespace Sys2Proof.Machine

/-- Decode in R75's order, then execute; an illegal word raises `ERR_ILLEGAL` and changes no state (R74, R75). -/
def acceptWord (w : CmdWord) (s : State) : Host.Outcome State Fault Refusal :=
  match decode w with
  | .ok i => exec i s
  | .error _ => .next (raiseError .errIllegal s)

/-- One input of the host, already taken from `input`: a command executes (R70); reset wins over a command presented
with it, which is not executed and gets no response (70_reset_and_hazards.md R202, log 8). -/
def acceptInput (x : HostInput) (s : State) : Host.Outcome State Fault Refusal :=
  match x with
  | .command w => acceptWord w s
  | .reset _ => .next (resetBlock s)

/-- The command word a table word stands for: bit 0 is its least significant bit, bits from `nbits` on are 0. -/
def tableCommand (nbits w : Nat) : HostInput := .command (BitVec.ofNat 24 (w % 2 ^ nbits))

end Sys2Proof.Machine
end

