-- ==== Sys2Proof/Machine/Step.lean ====
section
/-! DEFINITION. One step: the block takes the host's next input, if there is one (00_scope.md R7). -/

namespace Sys2Proof.Machine

/-- `step : State × Command → State × Response` (R7), with the command the first of `input` and the response in `rsp`. -/
def step (s : State) : Host.Outcome State Fault Refusal :=
  match s.input with
  | [] => .next (idle s)
  | x :: rest => acceptInput x { s with input := rest }

/-- The state in which the very next step takes this command word: it stands before whatever else the host has to send
(the block fetches nothing, 20_memory.md R54; log 1). -/
def State.withFetchWord (s : State) (nbits w : Nat) : State := { s with input := tableCommand nbits w :: s.input }

end Sys2Proof.Machine
end

