-- ==== Sys2Proof/Machine/Assembler.lean ====
section
/-! DEFINITION. The assembler lines of 30_encoding.md R78 and the pseudo-instructions of R79. What R78 leaves open (which blanks
separate, the case of hexadecimal digits, what a line that is none of these gives) is log 13. -/

namespace Sys2Proof.Machine

/-- A line's meaning: a command, or a pseudo-instruction (R79). -/
inductive AsmLine where
  | command (i : Instr)
  | crcSeed
  | crcRead
  | scanStatus
  | crcBytes (first : Byte) (more : List Byte)
  | scanBytes (first : Byte) (more : List Byte)
  deriving DecidableEq, Repr

/-- The expansion of a line into commands (R79). -/
def expand (l : AsmLine) : List Instr :=
  match l with
  | .command i => [i]
  | .crcSeed => [.crcInit Config.seed]
  | .crcRead => [.regRead 0x0000]
  | .scanStatus => [.regRead 0x0001]
  | .crcBytes b bs => (b :: bs).map .crcByte
  | .scanBytes b bs => (b :: bs).map .scanByte

/-- A register's name in R78's list, which is 10_state.md R22's. -/
def regNameText (r : RegName) : String :=
  match r with
  | .CRC => "CRC"
  | .STATUS => "STATUS"
  | .SYNC => "SYNC"
  | .FBASE => "FBASE"
  | .FRSV => "FRSV"
  | .FLEN => "FLEN"
  | .PCNT => "PCNT"
  | .SCRC => "SCRC"
  | .RXCRC => "RXCRC"
  | .POS => "POS"
  | .FSTART => "FSTART"
  | .HIDX => "HIDX"

/-- The registers in the order of their numbers (10_state.md R22). -/
def allRegs : List RegName :=
  [.CRC, .STATUS, .SYNC, .FBASE, .FRSV, .FLEN, .PCNT, .SCRC, .RXCRC, .POS, .FSTART, .HIDX]

/-- The value of a digit below `base`, at most 16; hexadecimal letters in either case (log 13). -/
def digitValue (base : Nat) (c : Char) : Option Nat :=
  let n := c.toNat
  let v := if 48 ≤ n ∧ n ≤ 57 then some (n - 48)
    else if 65 ≤ n ∧ n ≤ 70 then some (n - 55)
    else if 97 ≤ n ∧ n ≤ 102 then some (n - 87)
    else none
  match v with
  | some d => if d < base then some d else none
  | none => none

/-- The digits of a number, most significant first, added to `acc`. -/
def digitsValue (base : Nat) (acc : Nat) (cs : List Char) : Option Nat :=
  match cs with
  | [] => some acc
  | c :: rest =>
    match digitValue base c with
    | some d => digitsValue base (acc * base + d) rest
    | none => none

/-- A hexadecimal `0x..` or decimal number (R78). -/
def parseNumber (cs : List Char) : Option Nat :=
  match cs with
  | '0' :: 'x' :: d :: rest => digitsValue 16 0 (d :: rest)
  | d :: rest => digitsValue 10 0 (d :: rest)
  | [] => none

/-- A number in the range of a form B operand (R78). -/
def parseByte (cs : List Char) : Option Byte :=
  match parseNumber cs with
  | some n => if n < 256 then some (BitVec.ofNat 8 n) else none
  | none => none

/-- A number in the range of a form H operand (R78). -/
def parseHalf (cs : List Char) : Option Half :=
  match parseNumber cs with
  | some n => if n < 65536 then some (BitVec.ofNat 16 n) else none
  | none => none

/-- `REG_READ`'s operand: a register name, or a number (R78). -/
def parseReg (cs : List Char) : Option Half :=
  match allRegs.find? (fun r => (regNameText r).toList == cs) with
  | some r => some (regNumber r)
  | none => parseHalf cs

/-- Blanks between the words of a line. -/
def isBlank (c : Char) : Bool := c == ' ' || c == '\t' || c == '\r'

/-- The line without its comment, which `;` starts (R78). -/
def stripComment (cs : List Char) : List Char := cs.takeWhile (fun c => !(c == ';'))

/-- The words of a line; a comma is a word of its own. -/
def lineWords (cs : List Char) : List (List Char) :=
  match cs with
  | [] => []
  | c :: rest =>
    if isBlank c then [] :: lineWords rest
    else if c == ',' then [] :: [','] :: lineWords rest
    else
      match lineWords rest with
      | [] => [[c]]
      | w :: ws => if w == [','] then [c] :: w :: ws else (c :: w) :: ws

/-- The words of a line without the empty ones. -/
def tokens (cs : List Char) : List (List Char) := (lineWords cs).filter (fun w => !w.isEmpty)

/-- `b0, b1, ..., bn` after its first byte (R79). -/
def parseMoreBytes (ws : List (List Char)) : Option (List Byte) :=
  match ws with
  | [] => some []
  | [_] => none
  | comma :: w :: rest =>
    if comma == [','] then
      match parseByte w, parseMoreBytes rest with
      | some b, some bs => some (b :: bs)
      | _, _ => none
    else none

/-- `b0, b1, ..., bn` (R79). -/
def parseBytes (ws : List (List Char)) : Option (Byte × List Byte) :=
  match ws with
  | [] => none
  | w :: rest =>
    match parseByte w, parseMoreBytes rest with
    | some b, some bs => some (b, bs)
    | _, _ => none

/-- The command a mnemonic of form B makes of its operand. -/
def formBCommand (m : List Char) : Option (Byte → Instr) :=
  if m == "CRC_INIT".toList then some .crcInit
  else if m == "CRC_BYTE".toList then some .crcByte
  else if m == "SCAN_BYTE".toList then some .scanByte
  else none

/-- The command a mnemonic of form H makes of its operand; `REG_READ` apart, which takes names too. -/
def formHCommand (m : List Char) : Option (Half → Instr) :=
  if m == "SET_SYNC".toList then some .setSync
  else if m == "SCAN_START".toList then some .scanStart
  else if m == "PAYLOAD_READ".toList then some .payloadRead
  else none

/-- A mnemonic with no operand (R78 form N, R79). -/
def parseBare (m : List Char) : Option AsmLine :=
  if m == "NOP".toList then some (.command .nop)
  else if m == "CRC_SEED".toList then some .crcSeed
  else if m == "CRC_READ".toList then some .crcRead
  else if m == "SCAN_STATUS".toList then some .scanStatus
  else none

/-- A mnemonic with one operand (R78 forms B and H). -/
def parseUnary (m x : List Char) : Option AsmLine :=
  match formBCommand m, formHCommand m with
  | some k, _ => (parseByte x).map (fun b => .command (k b))
  | none, some k => (parseHalf x).map (fun h => .command (k h))
  | none, none =>
    if m == "REG_READ".toList then (parseReg x).map (fun h => .command (.regRead h)) else none

/-- A pseudo-instruction with a list of bytes (R79). -/
def parseList (m : List Char) (ws : List (List Char)) : Option AsmLine :=
  if m == "CRC_BYTES".toList then (parseBytes ws).map (fun p => .crcBytes p.1 p.2)
  else if m == "SCAN_BYTES".toList then (parseBytes ws).map (fun p => .scanBytes p.1 p.2)
  else none

/-- One line of assembler text (R78, R79): none where it is no line of these. -/
def parseLine (ws : List (List Char)) : Option AsmLine :=
  match ws with
  | [] => none
  | [m] => parseBare m
  | m :: x :: rest =>
    match rest, parseUnary m x with
    | [], some l => some l
    | _, _ => parseList m (x :: rest)

/-- The command words of one line; a line of blanks or of a comment alone gives none of them. -/
def assembleLine (line : String) : Option (List CmdWord) :=
  match tokens (stripComment line.toList) with
  | [] => some []
  | ws => (parseLine ws).map (fun l => (expand l).map encode)

/-- The text of a hexadecimal digit. -/
def hexDigit (d : BitVec 4) : Char := Char.ofNat (if d.toNat < 10 then 48 + d.toNat else 55 + d.toNat)

/-- `0x` and two digits. -/
def byteText (b : Byte) : List Char := ['0', 'x', hexDigit (b.extractLsb' 4 4), hexDigit (b.extractLsb' 0 4)]

/-- `0x` and four digits. -/
def halfText (h : Half) : List Char :=
  ['0', 'x', hexDigit (h.extractLsb' 12 4), hexDigit (h.extractLsb' 8 4), hexDigit (h.extractLsb' 4 4),
    hexDigit (h.extractLsb' 0 4)]

/-- The words of the assembler line of a command: `MNEMONIC`, or `MNEMONIC operand` (R78). -/
def lineOf (i : Instr) : List (List Char) :=
  match i with
  | .nop => ["NOP".toList]
  | .crcInit b => ["CRC_INIT".toList, byteText b]
  | .crcByte b => ["CRC_BYTE".toList, byteText b]
  | .setSync h => ["SET_SYNC".toList, halfText h]
  | .scanStart h => ["SCAN_START".toList, halfText h]
  | .scanByte b => ["SCAN_BYTE".toList, byteText b]
  | .payloadRead h => ["PAYLOAD_READ".toList, halfText h]
  | .regRead h => ["REG_READ".toList, halfText h]

/-! ### What counts as a text of an operand and as the end of a line, for statements; the assembler does not use it -/

/-- The number that digits, most significant first, stand for in a base. -/
def numberValue (base : Nat) (ds : List (BitVec 4)) : Nat := ds.foldl (fun n d => n * base + d.toNat) 0

/-- `cs` writes the number `n`: `0x` and hexadecimal digits, or decimal digits, one or more (R78).
Hexadecimal letters are upper case here, as the spec writes them; that the assembler reads lower case too is log 13. -/
def NumberText (cs : List Char) (n : Nat) : Prop :=
  ∃ ds : List (BitVec 4), ds ≠ [] ∧
    ((cs = '0' :: 'x' :: ds.map hexDigit ∧ n = numberValue 16 ds) ∨
     ((∀ d ∈ ds, d.toNat < 10) ∧ cs = ds.map hexDigit ∧ n = numberValue 10 ds))

/-- What may follow a command on its line: spaces, then nothing or a comment, which `;` starts (R78). -/
def LineEnd (cs : List Char) : Prop :=
  ∃ (n : Nat) (rest : List Char), cs = List.replicate n ' ' ++ rest ∧ (rest = [] ∨ ∃ c, rest = ';' :: c)

end Sys2Proof.Machine
end

