-- ==== Sys2Proof/Machine/Platform.lean ====
section
/-! DEFINITION. Several scans at once are several instances of the block, which share nothing (20_memory.md R64, 60_exceptions.md R190). -/

namespace Sys2Proof.Machine

/-- The states of a platform's blocks (R64). -/
abbrev Platform := List State

/-- Each instance starts from its own reset (R190); `INSTANCES` is open (00_scope.md R8). -/
def platformReset : Platform := List.replicate Config.instances State.reset

/-- One step of instance `k`; which instance steps next is the platform's choice, here an argument (log 9). -/
def platformStep (k : Nat) (p : Platform) : Host.Outcome Platform Fault Refusal :=
  match p[k]? with
  | none => .next p
  | some s =>
    match step s with
    | .next t => .next (p.set k t)
    | .fault f => .fault f
    | .refused r => .refused r

end Sys2Proof.Machine
end

