-- ==== Sys2Proof/Machine/Reference.lean ====
section
/-! DEFINITION. The scan contract on a whole buffer (41_scanner.md R120) and the frame format (30_encoding.md R80 to R82): what the
byte-serial block is measured against (R122). No meaning of a command uses this file. -/

namespace Sys2Proof.Machine

/-- `buf[i]` (00_scope.md R11); asked only where `i < len(buf)` (log 11). -/
def byteAt (buf : List Byte) (i : Nat) : Byte := buf.getD i 0

/-- `buf[a : b]` (00_scope.md R11). -/
def slice (buf : List Byte) (a b : Nat) : List Byte := (buf.drop a).take (b - a)

/-- The marker `(m0, m1)` stands at offset `i` of the buffer (R120). -/
def markerAt (m0 m1 : Byte) (buf : List Byte) (i : Nat) : Prop := buf[i]? = some m0 ∧ buf[i + 1]? = some m1

/-- The least offset at which the marker occurs (R120, R123). -/
def findMarker (m0 m1 : Byte) (buf : List Byte) : Option Nat :=
  match buf with
  | [] => none
  | b :: rest =>
    if b = m0 ∧ rest.head? = some m1 then some 0
    else (findMarker m0 m1 rest).map (· + 1)

/-- `L = buf[s+4] * 256 + buf[s+5]`, big-endian (R120, 20_memory.md R55). -/
def lengthField (buf : List Byte) (s : Nat) : Nat := (byteAt buf (s + 4)).toNat * 256 + (byteAt buf (s + 5)).toNat

/-- The three outcomes of SUN §4.2 (R120). -/
inductive ScanOutcome where
  | found (payloadBaseAddress : Half) (payload : List Byte)
  | notFound
  | truncated
  deriving DecidableEq, Repr

/-- The reasons the block reports in `STATUS.REASON` (R120, 10_state.md R24). -/
inductive ScanReason where
  | frameNotFound
  | frameTruncated
  | found
  | checksumMismatch
  deriving DecidableEq, Repr

/-- `STATUS.RESULT` of an outcome (R122 item 1). -/
def outcomeClass (o : ScanOutcome) : BitVec 2 :=
  match o with
  | .notFound => 0
  | .truncated => 1
  | .found _ _ => 2

/-- `STATUS.REASON` of a reason (R122 item 1). -/
def reasonCode (r : ScanReason) : BitVec 2 :=
  match r with
  | .frameNotFound => 0
  | .frameTruncated => 1
  | .found => 2
  | .checksumMismatch => 3

/-- `scan(buf, M0, M1, a)` (R120). -/
def scan (buf : List Byte) (m0 m1 : Byte) (a : Half) : ScanOutcome × ScanReason :=
  match findMarker m0 m1 buf with
  | none => (.notFound, .frameNotFound)
  | some s =>
    if buf.length < s + Config.hdrLen then (.truncated, .frameTruncated)
    else if buf.length < s + Config.hdrLen + lengthField buf s + 1 then (.truncated, .frameTruncated)
    else if checksum Config.seed (slice buf s (s + Config.hdrLen + lengthField buf s))
        = byteAt buf (s + Config.hdrLen + lengthField buf s) then
      (.found a (slice buf (s + Config.hdrLen) (s + Config.hdrLen + lengthField buf s)), .found)
    else (.notFound, .checksumMismatch)

/-- The frame's header and payload: marker, reserved bytes, big-endian length, payload (30_encoding.md R80). -/
def frameBody (m0 m1 r0 r1 : Byte) (p : List Byte) : List Byte :=
  [m0, m1, r0, r1, BitVec.ofNat 8 (p.length / 256), BitVec.ofNat 8 (p.length % 256)] ++ p

/-- A valid frame: its body, then the body's checksum (30_encoding.md R80, R82; 41_scanner.md R127). -/
def buildFrame (m0 m1 r0 r1 : Byte) (p : List Byte) : List Byte :=
  frameBody m0 m1 r0 r1 p ++ [checksum Config.seed (frameBody m0 m1 r0 r1 p)]

/-- The buffer with bit `k` of byte `j` flipped (R128). -/
def flipBit (buf : List Byte) (j k : Nat) : List Byte := buf.set j (byteAt buf j ^^^ BitVec.twoPow 8 k)

end Sys2Proof.Machine
end

