-- ==== Sys2Proof/Safety.lean ====
section
/-! DEFINITION. What claims about runs are stated in: the reachable-state invariant (10_state.md R37), the buffer of a command
sequence (41_scanner.md R121), what the registers hold of that buffer (10_state.md R29 to R34), and conformance to `scan` (R122). -/

namespace Sys2Proof.Machine

/-- `n` steps of the machine, stopping at a fault or a refusal. -/
def runFor (n : Nat) (s : State) : Host.Outcome State Fault Refusal := Sys2Proof.core.run n s

/-- The host issues these commands (30_encoding.md R78). -/
def commandInputs (is : List Instr) : List HostInput := is.map (fun i => .command (encode i))

/-- The host presents these bytes with `SCAN_BYTE`, in order (41_scanner.md R121). -/
def byteInputs (bs : List Byte) : List HostInput := commandInputs (bs.map .scanByte)

/-- The block after reset, with these inputs to come. -/
def resetWith (inputs : List HostInput) : State := { State.reset with input := inputs }

/-- The response a command gives in a state, if the command completes there. -/
def answer (i : Instr) (s : State) : Option Response := (nextOf (exec i s)).bind (fun t => t.rsp)

/-- A safe step: the machine goes on. -/
def StepSafe (s : State) : Prop := ∃ t, step s = .next t

/-- The reachable-state invariants of R37, with the register meanings of R29, R31, R33 and R34 that make a step keep them,
and the canonical form of `PBUF`. -/
structure StateInv (s : State) : Prop where
  /-- R37: `PCNT <= FLEN`. -/
  pcnt_le_flen : s.pcnt.toNat ≤ s.flen.toNat
  /-- R37: `HIDX <= 6`. -/
  hidx_le : s.hidx.toNat ≤ 6
  /-- R37: PAYLOAD implies `PCNT < FLEN`. -/
  payload_open : s.st = .payload → s.pcnt.toNat < s.flen.toNat
  /-- R37, R33: nothing of a frame is held before its marker has matched. -/
  searching : s.st = .hunt ∨ s.st = .sync1 →
    s.frsv = 0 ∧ s.flen = 0 ∧ s.pcnt = 0 ∧ s.scrc = Config.seed ∧ s.rxcrc = 0 ∧ s.fstart = 0
  /-- R37: DONE_FOUND implies `RXCRC = SCRC`. -/
  found : s.st = .doneFound → s.rxcrc = s.scrc
  /-- R37: DONE_MISMATCH implies `RXCRC != SCRC`. -/
  mismatch : s.st = .doneMismatch → s.rxcrc ≠ s.scrc
  /-- R34: 0 in HUNT. -/
  hidx_hunt : s.st = .hunt → s.hidx = 0
  /-- R34: 1 in SYNC1. -/
  hidx_sync1 : s.st = .sync1 → s.hidx = 1
  /-- R34: 2 to 5 in HDR. -/
  hidx_hdr : s.st = .hdr → 2 ≤ s.hidx.toNat ∧ s.hidx.toNat ≤ 5
  /-- R34: 6 once the header is complete. -/
  hidx_frame : s.st = .payload ∨ s.st = .check ∨ isFinal s.st = true → s.hidx = 6
  /-- R29, and a header byte that has not arrived yet reads 0 (42_host_access.md R162). -/
  hdr_pending : s.st = .hdr →
    s.pcnt = 0 ∧ (s.hidx.toNat ≤ 4 → s.flen = 0) ∧ (s.hidx = 5 → loByte s.flen = 0) ∧
    (s.hidx = 2 → s.frsv = 0) ∧ (s.hidx = 3 → loByte s.frsv = 0)
  /-- R29: `PCNT = FLEN` once the payload is complete. -/
  complete : s.st = .check ∨ isFinal s.st = true → s.pcnt = s.flen
  /-- R31: `RXCRC` is 0 before the checksum byte. -/
  rxcrc_pending : isFinal s.st = false → s.rxcrc = 0
  /-- The canonical form of `PBUF`. -/
  pbuf_wf : s.pbuf.wf = true

/-! ### The buffer of a command sequence -/

/-- The buffer after one more input (R121): the bytes presented since the last reset, `SCAN_START` or `SET_SYNC`. -/
def bufferAfter (buf : List Byte) (x : HostInput) : List Byte :=
  match x with
  | .reset _ => []
  | .command w =>
    match decode w with
    | .ok (.scanByte b) => buf ++ [b]
    | .ok (.scanStart _) => []
    | .ok (.setSync _) => []
    | .ok .nop => buf
    | .ok (.crcInit _) => buf
    | .ok (.crcByte _) => buf
    | .ok (.payloadRead _) => buf
    | .ok (.regRead _) => buf
    | .error _ => buf

/-- The buffer of the block after these inputs from reset (R121). -/
def bufferOf (inputs : List HostInput) : List Byte := inputs.foldl bufferAfter []

/-! ### What the registers hold of the buffer -/

/-- Before a match: no marker in the buffer, the frame's registers clear (R33, R37). -/
structure Searching (s : State) (buf : List Byte) : Prop where
  no_marker : findMarker (markerFirst s) (markerSecond s) buf = none
  frsv : s.frsv = 0
  flen : s.flen = 0
  pcnt : s.pcnt = 0
  scrc : s.scrc = Config.seed
  rxcrc : s.rxcrc = 0
  fstart : s.fstart = 0
  pos : s.pos = BitVec.ofNat 32 buf.length

/-- The buffer's first frame so far is `hdr`, then `pay`, after `pre`: what each register holds of it (R27 to R30, R33, R34,
and R37's last clause for `PBUF`). A header byte still to come reads 0. -/
structure FrameSoFar (s : State) (pre hdr pay : List Byte) : Prop where
  first_marker : findMarker (markerFirst s) (markerSecond s) (pre ++ hdr) = some pre.length
  hidx : s.hidx.toNat = hdr.length
  scrc : s.scrc = checksum Config.seed (hdr ++ pay)
  fstart : s.fstart = BitVec.ofNat 32 pre.length
  frsv : s.frsv = pairBytes (hdr.getD 2 0) (hdr.getD 3 0)
  flen : s.flen = pairBytes (hdr.getD 4 0) (hdr.getD 5 0)
  pcnt : s.pcnt.toNat = pay.length
  pbuf : ∀ i, i < pay.length → s.pbuf.read i = byteAt pay i

/-- The state holds what the presented buffer says it holds (R29 to R34, R37, R121). -/
def Tracks (s : State) (buf : List Byte) : Prop :=
  match s.st with
  | .hunt => Searching s buf ∧ s.hidx = 0 ∧ buf.getLast? ≠ some (markerFirst s)
  | .sync1 => Searching s buf ∧ s.hidx = 1 ∧ buf.getLast? = some (markerFirst s)
  | .hdr => ∃ pre hdr, buf = pre ++ hdr ∧ FrameSoFar s pre hdr [] ∧ 2 ≤ hdr.length ∧ hdr.length ≤ 5 ∧
      s.rxcrc = 0 ∧ s.pos = BitVec.ofNat 32 buf.length
  | .payload => ∃ pre hdr pay, buf = pre ++ hdr ++ pay ∧ FrameSoFar s pre hdr pay ∧ hdr.length = 6 ∧
      pay.length < s.flen.toNat ∧ s.rxcrc = 0 ∧ s.pos = BitVec.ofNat 32 buf.length
  | .check => ∃ pre hdr pay, buf = pre ++ hdr ++ pay ∧ FrameSoFar s pre hdr pay ∧ hdr.length = 6 ∧
      pay.length = s.flen.toNat ∧ s.rxcrc = 0 ∧ s.pos = BitVec.ofNat 32 buf.length
  | .doneFound => ∃ pre hdr pay more, buf = pre ++ hdr ++ pay ++ s.rxcrc :: more ∧ FrameSoFar s pre hdr pay ∧
      hdr.length = 6 ∧ pay.length = s.flen.toNat ∧ s.rxcrc = s.scrc ∧
      s.pos = BitVec.ofNat 32 (pre.length + 6 + pay.length + 1)
  | .doneMismatch => ∃ pre hdr pay more, buf = pre ++ hdr ++ pay ++ s.rxcrc :: more ∧ FrameSoFar s pre hdr pay ∧
      hdr.length = 6 ∧ pay.length = s.flen.toNat ∧ s.rxcrc ≠ s.scrc ∧
      s.pos = BitVec.ofNat 32 (pre.length + 6 + pay.length + 1)

/-! ### Conformance to the scan contract -/

/-- Every `PAYLOAD_READ` answers `ERR_RANGE`. -/
def NoPayload (s : State) : Prop := ∀ i : Half, answer (.payloadRead i) s = some ⟨.errRange, 0⟩

/-- `FSTART`, `POS`, `FRSV` of a complete frame at offset `off` with length `len` (R122 items 2, 3). -/
def FrameRegisters (s : State) (buf : List Byte) (off len : Nat) : Prop :=
  s.fstart = BitVec.ofNat 32 off ∧ s.pos = BitVec.ofNat 32 (off + 6 + len + 1) ∧
  s.frsv.toNat = (byteAt buf (off + 2)).toNat * 256 + (byteAt buf (off + 3)).toNat

/-- The five items of R122, with `buf`, `M0`, `M1`, `a` as in R121. -/
structure Conforms (s : State) (buf : List Byte) (r : ScanOutcome × ScanReason) : Prop where
  /-- `(outcome, reason) = scan(buf, M0, M1, a)`. -/
  scanned : r = scan buf (markerFirst s) (markerSecond s) s.fbase
  /-- Item 1. -/
  result : statusResult s.st = outcomeClass r.1
  /-- Item 1. -/
  reason : statusReason s.st = reasonCode r.2
  /-- Item 2. -/
  found : ∀ a p, r.1 = .found a p →
    s.st = .doneFound ∧ s.fbase = a ∧ s.flen.toNat = p.length ∧
    (∀ i : Half, answer (.payloadRead i) s =
      some (if i.toNat < p.length then ⟨.ok, (byteAt p i.toNat).setWidth 32⟩ else ⟨.errRange, 0⟩)) ∧
    ∃ off, findMarker (markerFirst s) (markerSecond s) buf = some off ∧ FrameRegisters s buf off p.length ∧
      s.rxcrc = s.scrc ∧ s.scrc = byteAt buf (off + 6 + p.length)
  /-- Item 3. -/
  mismatch : r.2 = .checksumMismatch →
    s.st = .doneMismatch ∧ NoPayload s ∧
    ∃ off, findMarker (markerFirst s) (markerSecond s) buf = some off ∧
      s.flen.toNat = lengthField buf off ∧ FrameRegisters s buf off s.flen.toNat ∧
      s.scrc = checksum Config.seed (slice buf off (off + 6 + s.flen.toNat)) ∧
      s.rxcrc = byteAt buf (off + 6 + s.flen.toNat)
  /-- Item 4. -/
  truncated : r.2 = .frameTruncated →
    NoPayload s ∧ s.pos = BitVec.ofNat 32 buf.length ∧
    ∃ off, findMarker (markerFirst s) (markerSecond s) buf = some off ∧ s.fstart = BitVec.ofNat 32 off
  /-- Item 5. -/
  notFound : r.2 = .frameNotFound →
    NoPayload s ∧ s.pos = BitVec.ofNat 32 buf.length ∧
    s.st = (if buf.getLast? = some (markerFirst s) then .sync1 else .hunt)

/-! ### States that differ only in what no command can read -/

/-- The two states differ at most in bytes of `PBUF` from index `PCNT` on (10_state.md R38). -/
def SameButUnreadPbuf (s t : State) : Prop :=
  t = { s with pbuf := t.pbuf } ∧ ∀ k, k < s.pcnt.toNat → s.pbuf.read k = t.pbuf.read k

end Sys2Proof.Machine
end

