-- ==== Sys2Proof/Certificates/Slice0/Obligations.lean ====
section
/-! DEFINITION. The statements for the provers. Each says what the rule it cites says, over every state and operand the rule covers. -/

open Sys2Proof Sys2Proof.Machine

/-! ### Reset, input and decoding -/

/-- From 70_reset_and_hazards.md R202: reset wins over a command presented with it, which is not executed and gets no
response. That the later commands stay to come is the model's reading of R202 (log 8). -/
def Obligations.ResetWinsOverAPresentedCommand : Prop :=
  ∀ (s : State) (presented : Option CmdWord) (rest : List HostInput), s.input = .reset presented :: rest →
    ∃ t, step s = .next t ∧ t.rsp = none ∧ t.input = rest ∧ t = { resetWith rest with pbuf := t.pbuf }

/-- 70_reset_and_hazards.md R200, the values of its list; `PBUF`, which R200 leaves unspecified, is not constrained. -/
def Obligations.ResetLeavesTheListedRegisterValues : Prop :=
  (∀ s : State, s = State.reset ∨
      (∃ u c rest, u.input = HostInput.reset c :: rest ∧ step u = .next s) →
    s.crc = 0xFF ∧ s.sync = 0x1ACF ∧ s.fbase = 0x0000 ∧ s.st = .hunt ∧ s.hidx = 0 ∧ s.frsv = 0x0000 ∧
    s.flen = 0x0000 ∧ s.pcnt = 0x0000 ∧ s.scrc = 0xFF ∧ s.rxcrc = 0x00 ∧ s.pos = 0 ∧ s.fstart = 0 ∧
    answer (.regRead 0x0001) s = some ⟨.ok, 0x000⟩ ∧ NoPayload s ∧
    exec (.scanStart 0x0000) s = .next { s with rsp := some ⟨.ok, 0⟩ }) ∧
  ∀ (u : State) (c : Option CmdWord) (rest : List HostInput), u.input = .reset c :: rest → ∃ s, step u = .next s

/-- The invariant of Safety.lean holds after reset. -/
def Obligations.InvariantHoldsAtReset : Prop :=
  StateInv State.reset ∧ ∀ inputs, StateInv (resetWith inputs)

/-- A step whose next input is a command word that decodes runs that command on the state without that input; the word a
fetch is set to runs next. -/
def Obligations.StepRunsTheDecodedCommand : Prop :=
  (∀ (s : State) (w : CmdWord) (rest : List HostInput) (i : Instr),
    s.input = .command w :: rest → decode w = .ok i → step s = exec i { s with input := rest }) ∧
  ∀ (s : State) (i : Instr), step (s.withFetchWord 24 (encode i).toNat) = exec i s

/-- 30_encoding.md R74: an undefined opcode raises `ERR_ILLEGAL` and changes no state. -/
def Obligations.UndefinedOpcodesAnswerErrIllegal : Prop :=
  ∀ (op : Byte) (imm : Half) (s : State) (rest : List HostInput),
    (0x03 ≤ op.toNat ∧ op.toNat ≤ 0x0F) ∨ (0x13 ≤ op.toNat ∧ op.toNat ≤ 0x1F) ∨
      (0x22 ≤ op.toNat ∧ op.toNat ≤ 0xFF) →
    s.input = .command (op ++ imm) :: rest →
    step s = .next { s with input := rest, rsp := some ⟨.errIllegal, 0⟩ }

/-- With no input the block does nothing: registers, buffer and inputs stay, and there is no response (the idle step is the
model's own, log 3). -/
def Obligations.NoInputChangesNothing : Prop :=
  ∀ s : State, s.input = [] → step s = .next { s with rsp := none }

/-- Words written out from the encodings of 30_encoding.md R73 decode to their commands. -/
def Obligations.TheSpecsWordsDecode : Prop :=
  decode 0x000000 = .ok .nop ∧ decode 0x0100FF = .ok (.crcInit 0xFF) ∧ decode 0x02001A = .ok (.crcByte 0x1A) ∧
  decode 0x107E7E = .ok (.setSync 0x7E7E) ∧ decode 0x1104AF = .ok (.scanStart 0x04AF) ∧
  decode 0x1200D5 = .ok (.scanByte 0xD5) ∧ decode 0x20FFFF = .ok (.payloadRead 0xFFFF) ∧
  decode 0x21000B = .ok (.regRead 0x000B) ∧ decode 0x000001 = .error (.immNotZero 0x0001) ∧
  decode 0x0101FF = .error (.immHighNotZero 0x01FF) ∧ decode 0x050000 = .error (.undefinedOpcode 0x05)

/-- Decode and encode agree both ways: every command's word decodes to it, and every word that decodes is its command's. -/
def Obligations.DecodeAndEncodeAgree : Prop :=
  (∀ i : Instr, i.wellFormed = true → decode (encode i) = .ok i) ∧
  (∀ (w : CmdWord) (i : Instr), decode w = .ok i → encode i = w) ∧
  ∀ i : Instr, i.wellFormed = true

/-- 30_encoding.md R75: the decoder's checks in their order, on every word, and what the block does with each outcome; a word
is accepted exactly where the opcode table has a row for it, as the command of that row, and no word has two. -/
def Obligations.DecoderMakesTheChecksInOrder : Prop :=
  (∀ (op : Byte) (imm : Half),
    decode (op ++ imm) =
      if op ∉ [0x00, 0x01, 0x02, 0x10, 0x11, 0x12, 0x20, 0x21] then .error (.undefinedOpcode op)
      else if op = 0x00 ∧ imm ≠ 0x0000 then .error (.immNotZero imm)
      else if op ∈ [0x01, 0x02, 0x12] ∧ hiByte imm ≠ 0x00 then .error (.immHighNotZero imm)
      else if op = 0x00 then .ok .nop
      else if op = 0x01 then .ok (.crcInit (loByte imm))
      else if op = 0x02 then .ok (.crcByte (loByte imm))
      else if op = 0x10 then .ok (.setSync imm)
      else if op = 0x11 then .ok (.scanStart imm)
      else if op = 0x12 then .ok (.scanByte (loByte imm))
      else if op = 0x20 then .ok (.payloadRead imm)
      else .ok (.regRead imm)) ∧
  (∀ (w : CmdWord) (s : State),
    acceptWord w s =
      match decode w with
      | .ok i => exec i s
      | .error _ => .next { s with rsp := some ⟨.errIllegal, 0⟩ }) ∧
  (∀ (w : CmdWord) (i : Instr), decode w = .ok i →
    ∃ r ∈ opcodeTable, r.covers w = true ∧ r.mnemonic = mnemonicOf i ∧ r.form = formOf i ∧
      ∀ r' ∈ opcodeTable, r'.covers w = true → r' = r) ∧
  ∀ (w : CmdWord), ∀ r ∈ opcodeTable, r.covers w = true →
    ∃ i, decode w = .ok i ∧ mnemonicOf i = r.mnemonic ∧ formOf i = r.form

/-! ### The host access commands -/

/-- 42_host_access.md R160: `NOP` responds `OK` and changes nothing; `0x000000` is its only word. -/
def Obligations.NopDoesNothing : Prop :=
  (∀ s : State, exec .nop s = .next { s with rsp := some ⟨.ok, 0⟩ }) ∧
  (∀ w : CmdWord, decode w = .ok .nop ↔ w = 0x000000) ∧
  ∀ (imm : Half) (s : State), acceptWord ((0x00 : Byte) ++ imm) s =
    if imm = 0 then exec .nop s else .next { s with rsp := some ⟨.errIllegal, 0⟩ }

/-- 42_host_access.md R161: `PAYLOAD_READ`. -/
def Obligations.PayloadReadExposesOnlyAFoundFrame : Prop :=
  ∀ (h : Half) (s : State),
    acceptWord ((0x20 : Byte) ++ h) s = exec (.payloadRead h) s ∧
    (s.st = .doneFound → h.toNat < s.flen.toNat →
      exec (.payloadRead h) s = .next { s with rsp := some ⟨.ok, (s.pbuf.read h.toNat).setWidth 32⟩ }) ∧
    (s.st ≠ .doneFound ∨ s.flen.toNat ≤ h.toNat →
      exec (.payloadRead h) s = .next { s with rsp := some ⟨.errRange, 0⟩ }) ∧
    (h = 0xFFFF → exec (.payloadRead h) s = .next { s with rsp := some ⟨.errRange, 0⟩ })

/-- 42_host_access.md R162: `REG_READ` of each register of 10_state.md R22, and of a number that is none. -/
def Obligations.RegReadAnswersEveryRegister : Prop :=
  ∀ s : State,
    (∀ h : Half, acceptWord ((0x21 : Byte) ++ h) s = exec (.regRead h) s) ∧
    exec (.regRead 0x0000) s = .next { s with rsp := some ⟨.ok, s.crc.setWidth 32⟩ } ∧
    exec (.regRead 0x0001) s = .next { s with rsp := some ⟨.ok, statusWord s.st⟩ } ∧
    exec (.regRead 0x0002) s = .next { s with rsp := some ⟨.ok, s.sync.setWidth 32⟩ } ∧
    exec (.regRead 0x0003) s = .next { s with rsp := some ⟨.ok, s.fbase.setWidth 32⟩ } ∧
    exec (.regRead 0x0004) s = .next { s with rsp := some ⟨.ok, s.frsv.setWidth 32⟩ } ∧
    exec (.regRead 0x0005) s = .next { s with rsp := some ⟨.ok, s.flen.setWidth 32⟩ } ∧
    exec (.regRead 0x0006) s = .next { s with rsp := some ⟨.ok, s.pcnt.setWidth 32⟩ } ∧
    exec (.regRead 0x0007) s = .next { s with rsp := some ⟨.ok, s.scrc.setWidth 32⟩ } ∧
    exec (.regRead 0x0008) s = .next { s with rsp := some ⟨.ok, s.rxcrc.setWidth 32⟩ } ∧
    exec (.regRead 0x0009) s = .next { s with rsp := some ⟨.ok, s.pos⟩ } ∧
    exec (.regRead 0x000A) s = .next { s with rsp := some ⟨.ok, s.fstart⟩ } ∧
    exec (.regRead 0x000B) s = .next { s with rsp := some ⟨.ok, s.hidx.setWidth 32⟩ } ∧
    ∀ h : Half, 0x000C ≤ h.toNat → exec (.regRead h) s = .next { s with rsp := some ⟨.errIllegal, 0⟩ }

/-- 10_state.md R24 and R39: the fields of `STATUS` in every scanner state, what it reads, and `done`. -/
def Obligations.StatusIsComputedFromTheScannerState : Prop :=
  ∀ s : State,
    (statusWord s.st).extractLsb' 0 3 = stCode s.st ∧ (statusWord s.st).extractLsb' 3 1 = 0 ∧
    (statusWord s.st).extractLsb' 4 2 =
      (if s.st = .hunt ∨ s.st = .sync1 then 0
       else if s.st = .hdr ∨ s.st = .payload ∨ s.st = .check then 1
       else if s.st = .doneFound then 2 else 3) ∧
    (statusWord s.st).extractLsb' 6 2 =
      (if (statusWord s.st).extractLsb' 4 2 = 1 then 1 else if (statusWord s.st).extractLsb' 4 2 = 2 then 2 else 0) ∧
    (statusWord s.st).extractLsb' 8 1 = (if s.st = .doneFound ∨ s.st = .doneMismatch then 1 else 0) ∧
    (statusWord s.st).extractLsb' 9 23 = 0 ∧
    statusWord s.st =
      (match s.st with
       | .hunt => 0x000 | .sync1 => 0x001 | .hdr => 0x052 | .payload => 0x053 | .check => 0x054
       | .doneFound => 0x1A5 | .doneMismatch => 0x136) ∧
    doneOutput s = (statusWord s.st).extractLsb' 8 1

/-- 42_host_access.md R163: a validated frame is read out whole, and stays until a restart or a reset; bytes presented
meanwhile are ignored. -/
def Obligations.ValidatedFrameIsReadableUntilRestart : Prop :=
  ∀ (s : State) (f : ValidatedFrame), validatedFrame s = some f →
    f.payloadBaseAddress = s.fbase ∧ f.payload.length = s.flen.toNat ∧
    (∀ i : Half, i.toNat < f.payload.length →
      answer (.payloadRead i) s = some ⟨.ok, (byteAt f.payload i.toNat).setWidth 32⟩) ∧
    (∀ b : Byte, exec (.scanByte b) s = .next { s with rsp := some ⟨.ignored, 0⟩ }) ∧
    ∀ (t : State) (w : CmdWord) (rest : List HostInput), s.input = .command w :: rest → step s = .next t →
      (∀ h, decode w ≠ .ok (.scanStart h)) → (∀ h, decode w ≠ .ok (.setSync h)) → validatedFrame t = some f

/-! ### The checksum -/

/-- 40_checksum.md R104: `CRC_INIT`. -/
def Obligations.CrcInitSetsTheSeed : Prop :=
  (∀ (b : Byte) (s : State), exec (.crcInit b) s = .next { s with crc := b, rsp := some ⟨.ok, 0⟩ }) ∧
  ∀ (imm : Half) (s : State), acceptWord ((0x01 : Byte) ++ imm) s =
    if hiByte imm = 0 then exec (.crcInit (loByte imm)) s else .next { s with rsp := some ⟨.errIllegal, 0⟩ }

/-- 40_checksum.md R105: `CRC_BYTE`, with the step of R100, and what a sequence of them computes. -/
def Obligations.CrcByteFoldsOneByte : Prop :=
  (∀ (b : Byte) (s : State),
    exec (.crcByte b) s = .next { s with crc := crc8Step s.crc b, rsp := some ⟨.ok, 0⟩ } ∧
    (b = s.crc → ∃ t, exec (.crcByte b) s = .next t ∧ t.crc = 0x00)) ∧
  (∀ (imm : Half) (s : State), acceptWord ((0x02 : Byte) ++ imm) s =
    if hiByte imm = 0 then exec (.crcByte (loByte imm)) s else .next { s with rsp := some ⟨.errIllegal, 0⟩ }) ∧
  ∀ (seed : Byte) (d : List Byte) (rest : List HostInput) (s : State),
    s.input = commandInputs (.crcInit seed :: d.map .crcByte) ++ rest →
    runFor (d.length + 1) s =
      .next { s with crc := checksum seed d, rsp := some ⟨.ok, 0⟩, input := rest }

/-- 40_checksum.md R103 and R106: the step depends on `r ^ b` alone, and is the 8-bit register form; one iteration keeps
the accumulator's low byte zero. -/
def Obligations.ChecksumStepIsTheEightBitRegister : Prop :=
  (∀ r b : Byte, crc8Step r b = crc8Step 0 (r ^^^ b)) ∧
  (∀ c : Byte, crcIteration (pairBytes c 0) = pairBytes (crcRegIteration c) 0) ∧
  (∀ r b : Byte, crc8Step r b = crc8StepReg r b) ∧
  ∀ (seed : Byte) (data : List Byte), checksumBy crc8StepReg seed data = checksum seed data

/-- 40_checksum.md R107: the table form gives the same checksum on all byte sequences. -/
def Obligations.ChecksumTableIsTheAlgorithm : Prop :=
  crcTable.length = 256 ∧ (∀ x : Byte, crcTable[x.toNat]? = some (crc8Step 0 x)) ∧
  (∀ r b : Byte, crc8StepTable r b = crc8Step r b) ∧
  ∀ (seed : Byte) (data : List Byte), checksumBy crc8StepTable seed data = checksum seed data

/-- 40_checksum.md R108, laws 1 to 6; law 6 says that the block's checksum from seed `0xFF` is the same in every state. -/
def Obligations.ChecksumLaws : Prop :=
  (∀ seed, checksum seed [] = seed) ∧
  (∀ seed a c, checksum seed (a ++ c) = checksum (checksum seed a) c) ∧
  (∀ r, crc8Step r r = 0x00) ∧
  (∀ seed d, checksum seed (d ++ [checksum seed d]) = 0x00) ∧
  (∀ m0 m1 r0 r1 p, checksum 0xFF (buildFrame m0 m1 r0 r1 p) = 0x00) ∧
  (∀ x y, crc8Step 0 (x ^^^ y) = crc8Step 0 x ^^^ crc8Step 0 y) ∧
  (crc8Step 0 0x01 = 0x07 ∧ crc8Step 0 0x02 = 0x0E ∧ crc8Step 0 0x04 = 0x1C ∧ crc8Step 0 0x08 = 0x38 ∧
    crc8Step 0 0x10 = 0x70 ∧ crc8Step 0 0x20 = 0xE0 ∧ crc8Step 0 0x40 = 0xC7 ∧ crc8Step 0 0x80 = 0x89) ∧
  (∀ y, ∃ x, crc8Step 0 x = y) ∧
  (∀ r b b', crc8Step r b = crc8Step r b' → b = b') ∧
  (∀ r r' b, crc8Step r b = crc8Step r' b → r = r') ∧
  (∀ seed a b b' c, b ≠ b' → checksum seed (a ++ b :: c) ≠ checksum seed (a ++ b' :: c)) ∧
  ∀ (d : List Byte) (rest rest' : List HostInput) (s s' : State),
    s.input = commandInputs (.crcInit 0xFF :: d.map .crcByte) ++ rest →
    s'.input = commandInputs (.crcInit 0xFF :: d.map .crcByte) ++ rest' →
    ∃ t t', runFor (d.length + 1) s = .next t ∧ runFor (d.length + 1) s' = .next t' ∧
      t.crc = checksum 0xFF d ∧ t'.crc = t.crc

/-! ### The scanner commands -/

/-- 41_scanner.md R130: `SET_SYNC`, in every state. -/
def Obligations.SetSyncLoadsTheMarkerAndRestarts : Prop :=
  ∀ (h : Half) (s : State),
    exec (.setSync h) s = .next
      { crc := s.crc, sync := h, fbase := s.fbase, frsv := 0, flen := 0, pcnt := 0, scrc := 0xFF, rxcrc := 0,
        pos := 0, fstart := 0, hidx := 0, st := .hunt, pbuf := s.pbuf, input := s.input, rsp := some ⟨.ok, 0⟩ } ∧
    acceptWord ((0x10 : Byte) ++ h) s = exec (.setSync h) s ∧
    ∀ t, exec (.setSync h) s = .next t →
      markerFirst t = h.extractLsb' 8 8 ∧ markerSecond t = h.extractLsb' 0 8 ∧ NoPayload t

/-- 41_scanner.md R131: `SCAN_START`, in every state. -/
def Obligations.ScanStartBeginsANewScan : Prop :=
  ∀ (h : Half) (s : State),
    exec (.scanStart h) s = .next
      { crc := s.crc, sync := s.sync, fbase := h, frsv := 0, flen := 0, pcnt := 0, scrc := 0xFF, rxcrc := 0,
        pos := 0, fstart := 0, hidx := 0, st := .hunt, pbuf := s.pbuf, input := s.input, rsp := some ⟨.ok, 0⟩ } ∧
    acceptWord ((0x11 : Byte) ++ h) s = exec (.scanStart h) s ∧
    ∀ t, exec (.scanStart h) s = .next t → NoPayload t

/-- 41_scanner.md R133: `SCAN_BYTE` in HUNT. -/
def Obligations.ScanByteInHunt : Prop :=
  ∀ (b : Byte) (s : State), s.st = .hunt →
    exec (.scanByte b) s = .next
      (if b = s.sync.extractLsb' 8 8 then { s with st := .sync1, hidx := 1, pos := s.pos + 1, rsp := some ⟨.ok, 0⟩ }
       else { s with pos := s.pos + 1, rsp := some ⟨.ok, 0⟩ })

/-- 41_scanner.md R134: `SCAN_BYTE` in SYNC1; `b = M1` is tested first. -/
def Obligations.ScanByteInSync1 : Prop :=
  ∀ (b : Byte) (s : State), s.st = .sync1 →
    exec (.scanByte b) s = .next
      (if b = s.sync.extractLsb' 0 8 then
        { s with st := .hdr, hidx := 2, fstart := s.pos - 1,
                 scrc := checksum 0xFF [s.sync.extractLsb' 8 8, s.sync.extractLsb' 0 8],
                 pos := s.pos + 1, rsp := some ⟨.ok, 0⟩ }
       else if b = s.sync.extractLsb' 8 8 then { s with pos := s.pos + 1, rsp := some ⟨.ok, 0⟩ }
       else { s with st := .hunt, hidx := 0, pos := s.pos + 1, rsp := some ⟨.ok, 0⟩ })

/-- 41_scanner.md R135: `SCAN_BYTE` in HDR, for each `HIDX` from 2 to 5. -/
def Obligations.ScanByteInHdr : Prop :=
  ∀ (b : Byte) (s : State), s.st = .hdr →
    (s.hidx = 2 → exec (.scanByte b) s = .next
      { s with scrc := crc8Step s.scrc b, frsv := b ++ loByte s.frsv, hidx := 3, pos := s.pos + 1,
               rsp := some ⟨.ok, 0⟩ }) ∧
    (s.hidx = 3 → exec (.scanByte b) s = .next
      { s with scrc := crc8Step s.scrc b, frsv := hiByte s.frsv ++ b, hidx := 4, pos := s.pos + 1,
               rsp := some ⟨.ok, 0⟩ }) ∧
    (s.hidx = 4 → exec (.scanByte b) s = .next
      { s with scrc := crc8Step s.scrc b, flen := b ++ loByte s.flen, hidx := 5, pos := s.pos + 1,
               rsp := some ⟨.ok, 0⟩ }) ∧
    (s.hidx = 5 → exec (.scanByte b) s = .next
      { s with scrc := crc8Step s.scrc b, flen := hiByte s.flen ++ b, pcnt := 0,
               st := if (hiByte s.flen).toNat * 256 + b.toNat = 0 then .check else .payload,
               hidx := 6, pos := s.pos + 1, rsp := some ⟨.ok, 0⟩ })

/-- 41_scanner.md R136: `SCAN_BYTE` in PAYLOAD: the byte goes to `PBUF[PCNT]`, every other byte of `PBUF` stays. -/
def Obligations.ScanByteInPayload : Prop :=
  ∀ (b : Byte) (s : State), s.st = .payload → s.pcnt.toNat < s.flen.toNat → s.pbuf.wf = true →
    ∃ t, exec (.scanByte b) s = .next t ∧
      t = { s with scrc := crc8Step s.scrc b,
                   st := if s.pcnt.toNat + 1 = s.flen.toNat then .check else .payload,
                   pcnt := s.pcnt + 1, pos := s.pos + 1, pbuf := t.pbuf, rsp := some ⟨.ok, 0⟩ } ∧
      t.pcnt.toNat = s.pcnt.toNat + 1 ∧ s.pcnt.toNat ≤ 65534 ∧
      t.pbuf.read s.pcnt.toNat = b ∧ (∀ a, a ≠ s.pcnt.toNat → t.pbuf.read a = s.pbuf.read a) ∧ t.pbuf.wf = true

/-- 41_scanner.md R137: `SCAN_BYTE` in CHECK. -/
def Obligations.ScanByteInCheck : Prop :=
  ∀ (b : Byte) (s : State), s.st = .check →
    exec (.scanByte b) s = .next
      { s with rxcrc := b, st := if b = s.scrc then .doneFound else .doneMismatch, pos := s.pos + 1,
               rsp := some ⟨.ok, 0⟩ }

/-- 41_scanner.md R138: `SCAN_BYTE` in a final state, what leaves a final state, and what `POS` is in one. -/
def Obligations.FinalStatesIgnoreBytes : Prop :=
  (∀ (b : Byte) (s : State), s.st = .doneFound ∨ s.st = .doneMismatch →
    exec (.scanByte b) s = .next { s with rsp := some ⟨.ignored, 0⟩ }) ∧
  (∀ (s t : State) (x : HostInput) (rest : List HostInput), s.st = .doneFound ∨ s.st = .doneMismatch →
    s.input = x :: rest → step s = .next t → t.st ≠ s.st →
    (∃ c, x = .reset c) ∨ (∃ h, x = .command (encode (.scanStart h))) ∨ ∃ h, x = .command (encode (.setSync h))) ∧
  ∀ (inputs : List HostInput) (n : Nat) (t : State), runFor n (resetWith inputs) = .next t →
    t.st = .doneFound ∨ t.st = .doneMismatch → t.pos = t.fstart + 6 + t.flen.setWidth 32 + 1

/-- The words of `SCAN_BYTE` (41_scanner.md R132, 30_encoding.md R72), and where it completes: in every state the invariant
allows. -/
def Obligations.ScanByteCompletesOnEveryByte : Prop :=
  (∀ (b : Byte) (s : State), StateInv s → ∃ t, exec (.scanByte b) s = .next t ∧
    t.crc = s.crc ∧ t.sync = s.sync ∧ t.fbase = s.fbase ∧ t.input = s.input ∧
    ((isFinal s.st = false ∧ t.pos = s.pos + 1 ∧ t.rsp = some ⟨.ok, 0⟩) ∨
     (isFinal s.st = true ∧ t.pos = s.pos ∧ t.rsp = some ⟨.ignored, 0⟩))) ∧
  ∀ (imm : Half) (s : State), acceptWord ((0x12 : Byte) ++ imm) s =
    if hiByte imm = 0 then exec (.scanByte (loByte imm)) s else .next { s with rsp := some ⟨.errIllegal, 0⟩ }

/-- 41_scanner.md R139: the transition table, every row. -/
def Obligations.ScanByteFollowsTheTransitionTable : Prop :=
  ∀ (b : Byte) (s : State), StateInv s → ∃ t, exec (.scanByte b) s = .next t ∧
    (s.st = .hunt → b = markerFirst s → t.st = .sync1 ∧ t.hidx = 1 ∧ t.rsp = some ⟨.ok, 0⟩) ∧
    (s.st = .hunt → b ≠ markerFirst s → t.st = .hunt ∧ t.hidx = 0 ∧ t.rsp = some ⟨.ok, 0⟩) ∧
    (s.st = .sync1 → b = markerSecond s → t.st = .hdr ∧ t.hidx = 2 ∧ t.rsp = some ⟨.ok, 0⟩) ∧
    (s.st = .sync1 → b ≠ markerSecond s → b = markerFirst s → t.st = .sync1 ∧ t.hidx = 1 ∧ t.rsp = some ⟨.ok, 0⟩) ∧
    (s.st = .sync1 → b ≠ markerSecond s → b ≠ markerFirst s → t.st = .hunt ∧ t.hidx = 0 ∧ t.rsp = some ⟨.ok, 0⟩) ∧
    (s.st = .hdr → s.hidx.toNat ≤ 4 → t.st = .hdr ∧ t.hidx.toNat = s.hidx.toNat + 1 ∧ t.rsp = some ⟨.ok, 0⟩) ∧
    (s.st = .hdr → s.hidx = 5 → pairBytes (hiByte s.flen) b = 0 → t.st = .check ∧ t.hidx = 6 ∧ t.rsp = some ⟨.ok, 0⟩) ∧
    (s.st = .hdr → s.hidx = 5 → pairBytes (hiByte s.flen) b ≠ 0 →
      t.st = .payload ∧ t.hidx = 6 ∧ t.rsp = some ⟨.ok, 0⟩) ∧
    (s.st = .payload → s.pcnt.toNat + 1 < s.flen.toNat → t.st = .payload ∧ t.hidx = 6 ∧ t.rsp = some ⟨.ok, 0⟩) ∧
    (s.st = .payload → s.pcnt.toNat + 1 = s.flen.toNat → t.st = .check ∧ t.hidx = 6 ∧ t.rsp = some ⟨.ok, 0⟩) ∧
    (s.st = .check → b = s.scrc → t.st = .doneFound ∧ t.hidx = 6 ∧ t.rsp = some ⟨.ok, 0⟩) ∧
    (s.st = .check → b ≠ s.scrc → t.st = .doneMismatch ∧ t.hidx = 6 ∧ t.rsp = some ⟨.ok, 0⟩) ∧
    (s.st = .doneFound → t.st = .doneFound ∧ t.hidx = 6 ∧ t.rsp = some ⟨.ignored, 0⟩) ∧
    (s.st = .doneMismatch → t.st = .doneMismatch ∧ t.hidx = 6 ∧ t.rsp = some ⟨.ignored, 0⟩)

/-! ### What every command leaves alone -/

/-- The "written by" column of 10_state.md R22, `PBUF` byte by byte, for every command in every state. -/
def Obligations.OnlyTheListedCommandsWriteARegister : Prop :=
  ∀ (i : Instr) (s t : State), exec i s = .next t →
    (t.crc ≠ s.crc → ∃ b, i = .crcInit b ∨ i = .crcByte b) ∧
    (t.sync ≠ s.sync → ∃ h, i = .setSync h) ∧
    (t.fbase ≠ s.fbase → ∃ h, i = .scanStart h) ∧
    (t.frsv ≠ s.frsv ∨ t.flen ≠ s.flen ∨ t.pcnt ≠ s.pcnt ∨ t.scrc ≠ s.scrc ∨ t.rxcrc ≠ s.rxcrc ∨ t.pos ≠ s.pos ∨
      t.fstart ≠ s.fstart ∨ t.hidx ≠ s.hidx ∨ t.st ≠ s.st →
      (∃ h, i = .scanStart h) ∨ (∃ h, i = .setSync h) ∨ ∃ b, i = .scanByte b) ∧
    (∀ a, t.pbuf.read a ≠ s.pbuf.read a → (∃ b, i = .scanByte b) ∧ s.st = .payload ∧ a = s.pcnt.toNat) ∧
    t.input = s.input

/-- 60_exceptions.md R180: an error response changes no state. -/
def Obligations.ErrorResponsesChangeNoState : Prop :=
  ∀ (w : CmdWord) (rest : List HostInput) (s t : State) (r : Response),
    s.input = .command w :: rest → step s = .next t → t.rsp = some r →
    r.code = .errIllegal ∨ r.code = .errRange →
    r.data = 0 ∧ t = { s with input := rest, rsp := some r }

/-- 60_exceptions.md R181, 30_encoding.md R76: the causes of each response code, for every word in every state. -/
def Obligations.ResponseCodesHaveExactlyTheListedCauses : Prop :=
  ∀ (w : CmdWord) (s t : State) (r : Response), acceptWord w s = .next t → t.rsp = some r →
    (r.code = .errIllegal ↔
      wordOp w ∉ [0x00, 0x01, 0x02, 0x10, 0x11, 0x12, 0x20, 0x21] ∨
      (wordOp w = 0x00 ∧ wordImm w ≠ 0) ∨
      (wordOp w ∈ [0x01, 0x02, 0x12] ∧ hiByte (wordImm w) ≠ 0) ∨
      (wordOp w = 0x21 ∧ 0x000B < (wordImm w).toNat)) ∧
    (r.code = .errRange ↔ wordOp w = 0x20 ∧ (s.st ≠ .doneFound ∨ s.flen.toNat ≤ (wordImm w).toNat)) ∧
    (r.code = .ignored ↔ wordOp w = 0x12 ∧ hiByte (wordImm w) = 0 ∧ (s.st = .doneFound ∨ s.st = .doneMismatch)) ∧
    (r.code ≠ .ok → r.data = 0) ∧
    (r.data ≠ 0 → wordOp w = 0x20 ∨ wordOp w = 0x21)

/-- 20_memory.md R59: which commands are idempotent, and that the two byte commands are not. -/
def Obligations.IdempotentCommands : Prop :=
  (∀ (i : Instr) (s t : State), (∀ b, i ≠ .crcByte b) → (∀ b, i ≠ .scanByte b) → exec i s = .next t →
    exec i t = .next t) ∧
  (∀ (i : Instr) (s t : State), (i = .nop ∨ (∃ h, i = .regRead h) ∨ ∃ h, i = .payloadRead h) → exec i s = .next t →
    t = { s with rsp := t.rsp }) ∧
  (∃ b s t u, exec (.crcByte b) s = .next t ∧ exec (.crcByte b) t = .next u ∧ u.crc ≠ t.crc) ∧
  ∃ b s t u, exec (.scanByte b) s = .next t ∧ exec (.scanByte b) t = .next u ∧ u.st ≠ t.st

/-- 10_state.md R21: how `POS` moves under each command. -/
def Obligations.PosCountsConsumedBytes : Prop :=
  ∀ (i : Instr) (s t : State), exec i s = .next t →
    ((∃ b, i = .scanByte b) → t.rsp = some ⟨.ok, 0⟩ → t.pos.toNat = (s.pos.toNat + 1) % 2 ^ 32) ∧
    ((∃ b, i = .scanByte b) → t.rsp ≠ some ⟨.ok, 0⟩ → t.pos = s.pos) ∧
    ((∃ h, i = .scanStart h) ∨ (∃ h, i = .setSync h) → t.pos = 0) ∧
    ((∀ b, i ≠ .scanByte b) → (∀ h, i ≠ .scanStart h) → (∀ h, i ≠ .setSync h) → t.pos = s.pos)

/-! ### What a command does not depend on -/

/-- The checksum unit and the scanner share no state (20_memory.md R62, 10_state.md R35): neither's commands touch or depend on
the other's registers, and a command of one commutes with a command of the other. -/
def Obligations.TheTwoUnitsAreIndependent : Prop :=
  (∀ (i : Instr) (s t : State), (∃ b, i = .crcInit b ∨ i = .crcByte b) → exec i s = .next t →
    t = { s with crc := t.crc, rsp := some ⟨.ok, 0⟩ } ∧
    ∀ u : State, u.crc = s.crc → exec i u = .next { u with crc := t.crc, rsp := some ⟨.ok, 0⟩ }) ∧
  (∀ (i : Instr) (s t : State) (c : Byte), (∀ b, i ≠ .crcInit b) → (∀ b, i ≠ .crcByte b) → i ≠ .regRead 0x0000 →
    exec i s = .next t → t.crc = s.crc ∧ exec i { s with crc := c } = .next { t with crc := c }) ∧
  ∀ (i j : Instr) (s s1 s2 t1 t2 : State), (∃ b, i = .crcInit b ∨ i = .crcByte b) →
    ((∃ h, j = .setSync h) ∨ (∃ h, j = .scanStart h) ∨ ∃ b, j = .scanByte b) →
    exec i s = .next s1 → exec j s1 = .next s2 → exec j s = .next t1 → exec i t1 = .next t2 →
    s2 = { t2 with rsp := s2.rsp }

/-- A response is not state (10_state.md R36), and no command sees a later one (20_memory.md R61): what a step does depends on
neither the last response nor the inputs behind the next one. -/
def Obligations.StepReadsNoResponseAndNoLaterInput : Prop :=
  ∀ (s t : State) (x : HostInput) (rest : List HostInput), s.input = x :: rest → step s = .next t →
    t.input = rest ∧
    ∀ (r : Option Response) (later : List HostInput),
      step { s with rsp := r, input := x :: later } = .next { t with input := later }

/-- `POS` and `FSTART` are informational (70_reset_and_hazards.md R205 item 4): no other register, no `PBUF` byte and no response
but their own reads depends on them. -/
def Obligations.PositionsNeverAffectAVerdict : Prop :=
  ∀ (i : Instr) (s t : State) (p f : Word), exec i s = .next t →
    ∃ u, exec i { s with pos := p, fstart := f } = .next u ∧
      u = { t with pos := u.pos, fstart := u.fstart, rsp := u.rsp } ∧
      (i ≠ .regRead 0x0009 → i ≠ .regRead 0x000A → u.rsp = t.rsp)

/-- The bytes of `PBUF` from `PCNT` on are never observed (10_state.md R38): one command on two states that differ in nothing
else answers the same and leaves two such states. -/
def Obligations.UnreadPbufBytesAreNeverObserved : Prop :=
  ∀ (i : Instr) (s s' t : State), StateInv s → StateInv s' → SameButUnreadPbuf s s' → exec i s = .next t →
    ∃ t', exec i s' = .next t' ∧ SameButUnreadPbuf t t' ∧ t'.rsp = t.rsp

/-- `PBUF`'s contents at reset are never observed (70_reset_and_hazards.md R200, 92 D28): whatever they are, every
sequence of inputs gives the same responses and the same registers. This is what makes log 4's choice harmless. -/
def Obligations.PbufContentsAtResetAreNeverObserved : Prop :=
  ∀ (inputs : List HostInput) (m m' : Memory) (n : Nat), m.wf = true → m'.wf = true →
    ∃ t t', runFor n { resetWith inputs with pbuf := m } = .next t ∧
      runFor n { resetWith inputs with pbuf := m' } = .next t' ∧
      t'.rsp = t.rsp ∧ t' = { t with pbuf := t'.pbuf } ∧ validatedFrame t' = validatedFrame t

/-- All state but `PBUF` is readable by `REG_READ` (10_state.md R38, 60_exceptions.md R191): two states that answer every
`REG_READ` alike hold the same registers and the same scanner state. -/
def Obligations.RegReadShowsAllRegisters : Prop :=
  ∀ s t : State, (∀ h : Half, answer (.regRead h) s = answer (.regRead h) t) →
    t = { s with pbuf := t.pbuf, input := t.input, rsp := t.rsp }

/-! ### Whole-machine rules -/

/-- Every step keeps the invariant (10_state.md R37), from every state that meets it. -/
def Obligations.EveryStepKeepsTheInvariant : Prop :=
  ∀ s t : State, StateInv s → step s = .next t → StateInv t

/-- From 60_exceptions.md R183 and 10_state.md R37: every word completes in one step with one response, in every state that
meets the invariant, and `SCAN_START` recovers from each. Outside the invariant a `SCAN_BYTE` could meet the model's own fault,
`noSuchByte` (log 7). -/
def Obligations.EveryWordCompletesWithOneResponse : Prop :=
  (∀ (s : State) (w : CmdWord) (rest : List HostInput), StateInv s → s.input = .command w :: rest →
    ∃ t r, step s = .next t ∧ t.rsp = some r ∧ t.input = rest) ∧
  (∀ (s : State) (h : Half), ∃ t, exec (.scanStart h) s = .next t ∧ t.st = .hunt ∧ t.fbase = h ∧ Searching t []) ∧
  ∀ (inputs : List HostInput) (n : Nat), ∃ t, runFor n (resetWith inputs) = .next t

/-- 41_scanner.md R140: from HDR with `HIDX = 2` a final state is reached after exactly `4 + L + 1` further bytes, whatever
their values, and `STATUS.RESULT` is Truncated until then; so a scan whose buffer holds a marker at `s` ends with byte
`s + 6 + L` and reports Truncated from the marker to there. -/
def Obligations.AFrameEndsAfterExactlyItsBytes : Prop :=
  (∀ (s : State) (bs : List Byte) (rest : List HostInput), StateInv s → s.st = .hdr → s.hidx = 2 →
    s.input = byteInputs bs ++ rest →
    bs.length = 4 + ((byteAt bs 2).toNat * 256 + (byteAt bs 3).toNat) + 1 →
    (∀ k, k < bs.length → ∃ t, runFor k s = .next t ∧ statusResult t.st = 1 ∧ isFinal t.st = false) ∧
    ∃ t, runFor bs.length s = .next t ∧ isFinal t.st = true ∧ t.input = rest) ∧
  ∀ (s : State) (a : Half) (buf : List Byte) (off : Nat) (rest : List HostInput), StateInv s →
    s.input = .command (encode (.scanStart a)) :: byteInputs buf ++ rest →
    findMarker (markerFirst s) (markerSecond s) buf = some off →
    (∀ k, off + 2 ≤ k → k ≤ buf.length → (k < off + 6 ∨ k < off + 6 + lengthField buf off + 1) →
      ∃ t, runFor (1 + k) s = .next t ∧ statusResult t.st = 1) ∧
    (off + 6 + lengthField buf off + 1 ≤ buf.length →
      ∃ t, runFor (1 + (off + 6 + lengthField buf off + 1)) s = .next t ∧ isFinal t.st = true)

/-- The registers hold what the presented bytes say (10_state.md R29 to R34, R37): every step of the block keeps `Tracks`, the
buffer growing as 41_scanner.md R121 says. -/
def Obligations.EveryStepTracksTheBuffer : Prop :=
  (∀ inputs, Tracks (resetWith inputs) []) ∧
  ∀ (s t : State) (buf : List Byte) (x : HostInput) (rest : List HostInput),
    StateInv s → Tracks s buf → s.input = x :: rest → step s = .next t → Tracks t (bufferAfter buf x)

/-- 41_scanner.md R122: after any sequence of commands and resets, the block's verdict, registers and readable payload are
those of `scan` on the bytes presented since the last restart. -/
def Obligations.AnyCommandSequenceConformsToScan : Prop :=
  ∀ inputs : List HostInput, ∃ t r, runFor inputs.length (resetWith inputs) = .next t ∧ t.input = [] ∧
    Conforms t (bufferOf inputs) r

/-- No byte is exposed that no checksum has validated (20_memory.md R51, SUN's ValidatedFrame invariant): a `PAYLOAD_READ`
answers `OK` only with a byte of the payload of a frame in the presented buffer whose checksum matches. -/
def Obligations.OnlyValidatedBytesAreExposed : Prop :=
  ∀ (inputs : List HostInput) (n : Nat) (t : State) (h : Half) (d : Word),
    runFor n (resetWith inputs) = .next t → answer (.payloadRead h) t = some ⟨.ok, d⟩ →
    ∃ off len, markerAt (markerFirst t) (markerSecond t) (bufferOf (inputs.take n)) off ∧
      len = lengthField (bufferOf (inputs.take n)) off ∧ h.toNat < len ∧
      off + 6 + len < (bufferOf (inputs.take n)).length ∧
      checksum 0xFF (slice (bufferOf (inputs.take n)) off (off + 6 + len)) =
        byteAt (bufferOf (inputs.take n)) (off + 6 + len) ∧
      d = (byteAt (bufferOf (inputs.take n)) (off + 6 + h.toNat)).setWidth 32

/-! ### The scan contract -/

/-- 41_scanner.md R123: the frame starts at the least offset at which the marker occurs, overlaps included, and the bytes
before it are no part of the frame and enter no checksum. -/
def Obligations.TheFirstMarkerIsTheLeastOffset : Prop :=
  ∀ (m0 m1 : Byte) (buf : List Byte),
    (∀ s, findMarker m0 m1 buf = some s ↔ markerAt m0 m1 buf s ∧ ∀ j, j < s → ¬ markerAt m0 m1 buf j) ∧
    (findMarker m0 m1 buf = none ↔ ∀ j, ¬ markerAt m0 m1 buf j) ∧
    (∀ (pre : List Byte) (a : Half), findMarker m0 m1 (pre ++ buf) = some pre.length →
      scan (pre ++ buf) m0 m1 a = scan buf m0 m1 a) ∧
    findMarker 0x1A 0xCF [0x1A, 0x1A, 0xCF] = some 1 ∧ findMarker 0x7E 0x7E [0x7E, 0x7E, 0x7E] = some 0

/-- 41_scanner.md R125: once the first frame is complete, further bytes change nothing of the scan's result. -/
def Obligations.ACompleteFrameIsFinal : Prop :=
  ∀ (m0 m1 : Byte) (a : Half) (buf more : List Byte) (s : Nat), findMarker m0 m1 buf = some s →
    s + 6 + lengthField buf s + 1 ≤ buf.length →
    scan (buf ++ more) m0 m1 a = scan buf m0 m1 a ∧
      ((scan buf m0 m1 a).2 = .found ∨ (scan buf m0 m1 a).2 = .checksumMismatch)

/-- 41_scanner.md R127: a built frame scans back to its payload and address. -/
def Obligations.BuiltFrameScansToItsPayload : Prop :=
  ∀ (m0 m1 r0 r1 : Byte) (p : List Byte) (a : Half), p.length ≤ 65535 →
    scan (buildFrame m0 m1 r0 r1 p) m0 m1 a = (.found a p, .found)

/-- The round trip through the block itself: from any state that meets the invariant, `SCAN_START a` and the bytes of a
built frame leave DONE_FOUND with the frame readable and `POS` just past its checksum byte, again in a state that meets the
invariant, with the host's further inputs still to come. -/
def Obligations.FramesRoundTripThroughTheBlock : Prop :=
  ∀ (s : State) (a : Half) (r0 r1 : Byte) (p : List Byte) (rest : List HostInput), StateInv s → p.length ≤ 65535 →
    s.input = .command (encode (.scanStart a)) ::
      byteInputs (buildFrame (markerFirst s) (markerSecond s) r0 r1 p) ++ rest →
    ∃ t, runFor (1 + (6 + p.length + 1)) s = .next t ∧ t.input = rest ∧ t.st = .doneFound ∧
      validatedFrame t = some ⟨a, p⟩ ∧ t.pos.toNat = 6 + p.length + 1 ∧ t.fstart = 0 ∧
      t.frsv = pairBytes r0 r1 ∧ t.crc = s.crc ∧ t.sync = s.sync ∧ StateInv t

/-- 41_scanner.md R128: no single-bit flip of a buffer that is exactly one valid frame scans to Found with its payload, and
what a flip in each part of the frame gives instead. -/
def Obligations.SingleBitFlipsAreNeverFoundIntact : Prop :=
  ∀ (m0 m1 r0 r1 : Byte) (p g : List Byte) (a : Half) (j k : Nat), p.length ≤ 65535 →
    j < (buildFrame m0 m1 r0 r1 p).length → k < 8 → g = flipBit (buildFrame m0 m1 r0 r1 p) j k →
    (∀ b, (scan g m0 m1 a).1 ≠ .found b p) ∧
    (j = 2 ∨ j = 3 ∨ 6 ≤ j → scan g m0 m1 a = (.notFound, .checksumMismatch)) ∧
    (j = 4 ∨ j = 5 → lengthField g 0 ≠ p.length ∧
      (p.length < lengthField g 0 → scan g m0 m1 a = (.truncated, .frameTruncated)) ∧
      ∀ b q, (scan g m0 m1 a).1 = .found b q → q.length = lengthField g 0) ∧
    (j = 0 ∨ j = 1 → findMarker m0 m1 g ≠ some 0 ∧
      ∀ s b q, findMarker m0 m1 g = some s → (scan g m0 m1 a).1 = .found b q → 1 ≤ s ∧ s + q.length ≤ p.length)

/-! ### Platform and assembler -/

/-- Instances share nothing (20_memory.md R64, 60_exceptions.md R190): a step of instance `k` is that instance's own step and
leaves every other instance as it was. -/
def Obligations.InstancesShareNothing : Prop :=
  (∀ (k : Nat) (p q : Platform), platformStep k p = .next q →
    q.length = p.length ∧ (∀ j, j ≠ k → q[j]? = p[j]?) ∧
    ∀ s, p[k]? = some s → ∃ t, step s = .next t ∧ q[k]? = some t) ∧
  (∀ (k : Nat) (p : Platform) (s t : State), p[k]? = some s → step s = .next t →
    platformStep k p = .next (p.set k t)) ∧
  platformReset.length = Config.instances ∧ ∀ s ∈ platformReset, s = State.reset

/-- From 30_encoding.md R78, R79, on lines already split into words: the line of every command with a hexadecimal operand of
full width parses to its word, `REG_READ` takes each register's name, a number outside the form's range parses to nothing (what
such a line gives is the model's choice, log 13), and the parsed pseudo-instructions expand as listed. -/
def Obligations.AssemblerLinesEncodeTheirCommands : Prop :=
  (∀ i : Instr, (parseLine (lineOf i)).map (fun l => (expand l).map encode) = some [encode i]) ∧
  (∀ r : RegName, parseLine ["REG_READ".toList, (regNameText r).toList] = some (.command (.regRead (regNumber r)))) ∧
  (∀ (i : Instr) (num : List Char) (n : Nat), NumberText num n →
    (formOf i = .B ∧ 256 ≤ n) ∨ (formOf i = .H ∧ 65536 ≤ n) → parseLine [(mnemonicOf i).toList, num] = none) ∧
  expand .crcSeed = [.crcInit 0xFF] ∧ expand .crcRead = [.regRead 0x0000] ∧ expand .scanStatus = [.regRead 0x0001] ∧
  (∀ b bs, expand (.crcBytes b bs) = .crcByte b :: bs.map .crcByte) ∧
  ∀ b bs, expand (.scanBytes b bs) = .scanByte b :: bs.map .scanByte

/-- 30_encoding.md R78, R79: the text of a line assembles to its words. Form N is the mnemonic; forms B and H take a hexadecimal
or a decimal number; `REG_READ` takes a register name too; the pseudo-instructions assemble to their expansions; every line may
end in a comment. -/
def Obligations.AssemblerTextGivesItsWords : Prop :=
  (∀ (line : String) (i : Instr) (tail : List Char), LineEnd tail → formOf i = .N →
    line.toList = (mnemonicOf i).toList ++ tail → assembleLine line = some [encode i]) ∧
  (∀ (line : String) (i : Instr) (num tail : List Char), LineEnd tail → formOf i = .B ∨ formOf i = .H →
    NumberText num (immOf i).toNat → line.toList = (mnemonicOf i).toList ++ ' ' :: num ++ tail →
    assembleLine line = some [encode i] ∧ encode i = opcodeOf i ++ immOf i) ∧
  (∀ (line : String) (r : RegName) (tail : List Char), LineEnd tail →
    line.toList = "REG_READ".toList ++ ' ' :: (regNameText r).toList ++ tail →
    assembleLine line = some [encode (.regRead (regNumber r))]) ∧
  (∀ (line : String) (tail : List Char), LineEnd tail →
    (line.toList = "CRC_SEED".toList ++ tail → assembleLine line = some [encode (.crcInit 0xFF)]) ∧
    (line.toList = "CRC_READ".toList ++ tail → assembleLine line = some [encode (.regRead 0x0000)]) ∧
    (line.toList = "SCAN_STATUS".toList ++ tail → assembleLine line = some [encode (.regRead 0x0001)])) ∧
  (∀ (line : String) (nums : List (List Char)) (bs : List Byte) (tail : List Char), LineEnd tail → bs ≠ [] →
    List.Forall₂ (fun num b => NumberText num b.toNat) nums bs →
    (line.toList = "CRC_BYTES".toList ++ ' ' :: [',', ' '].intercalate nums ++ tail →
      assembleLine line = some (bs.map (fun b => encode (.crcByte b)))) ∧
    (line.toList = "SCAN_BYTES".toList ++ ' ' :: [',', ' '].intercalate nums ++ tail →
      assembleLine line = some (bs.map (fun b => encode (.scanByte b))))) ∧
  assembleLine "SCAN_BYTE 0x1A" = some [0x12001A] ∧ assembleLine "REG_READ STATUS" = some [0x210001]
end

