-- ==== Sys2Proof/Laws/Assembler.lean ====
section
/-! SUPPORT. What the assembler reads of a line: its comment, its words, its numbers. -/

namespace Sys2Proof.Machine

/-- Characters that no line's words are split at. -/
def PlainWord (w : List Char) : Prop := ∀ c ∈ w, isBlank c = false ∧ (c == ',') = false ∧ (c == ';') = false

theorem plainWord_of_all {w : List Char} (h : w.all (fun c => !isBlank c && !(c == ',') && !(c == ';')) = true) :
    PlainWord w := fun c hc => by
  have := List.all_eq_true.1 h c hc
  simp only [Bool.and_eq_true, Bool.not_eq_true'] at this
  exact ⟨this.1.1, this.1.2, this.2⟩

/-- Every mnemonic, and every register's name, is one word. -/
theorem plainWord_mnemonic (i : Instr) : PlainWord (mnemonicOf i).toList := by
  cases i <;> (dsimp only [mnemonicOf]; exact plainWord_of_all rfl)

theorem plainWord_regName (r : RegName) : PlainWord (regNameText r).toList := by
  cases r <;> exact plainWord_of_all rfl

theorem PlainWord.cons {c : Char} {w : List Char} (h : PlainWord (c :: w)) :
    (isBlank c = false ∧ (c == ',') = false ∧ (c == ';') = false) ∧ PlainWord w :=
  ⟨h c (List.mem_cons_self ..), fun d hd => h d (List.mem_cons_of_mem _ hd)⟩

theorem PlainWord.ne_comma {w : List Char} (h : PlainWord w) : (w == [',']) = false := by
  apply beq_eq_false_iff_ne.2
  rintro rfl
  exact absurd (h ',' (List.mem_cons_self ..)).2.1 (by decide)

/-! ### Words -/

theorem lineWords_blank (rest : List Char) : lineWords (' ' :: rest) = [] :: lineWords rest := rfl

theorem lineWords_comma (rest : List Char) : lineWords (',' :: rest) = [] :: [','] :: lineWords rest := rfl

theorem lineWords_plain_cons {c : Char} (h : isBlank c = false ∧ (c == ',') = false ∧ (c == ';') = false) (rest : List Char) :
    lineWords (c :: rest) =
      match lineWords rest with
      | [] => [[c]]
      | w :: ws => if w == [','] then [c] :: w :: ws else (c :: w) :: ws :=
  (if_neg (by simp [h.1])).trans (if_neg (by simp [h.2.1]))

/-- A word before text whose first word is empty is read as it stands. -/
theorem lineWords_append {w rest : List Char} {ws : List (List Char)} (h : PlainWord w) (hr : lineWords rest = [] :: ws) :
    lineWords (w ++ rest) = w :: ws := by
  induction w with
  | nil => exact hr
  | cons c w ih =>
    rw [List.cons_append, lineWords_plain_cons h.cons.1, ih h.cons.2]
    simp only
    rw [if_neg (by simp [h.cons.2.ne_comma])]

/-- A last word. -/
theorem lineWords_last {w : List Char} (h : PlainWord w) (hw : w ≠ []) : lineWords w = [w] := by
  induction w with
  | nil => exact absurd rfl hw
  | cons c w ih =>
    rw [lineWords_plain_cons h.cons.1]
    cases w with
    | nil => rfl
    | cons d w =>
      rw [ih h.cons.2 (List.cons_ne_nil _ _)]
      simp only
      rw [if_neg (by simp [h.cons.2.ne_comma])]

theorem lineWords_spaces (n : Nat) : lineWords (List.replicate n ' ') = List.replicate n [] := by
  induction n with
  | zero => rfl
  | succ n ih => rw [List.replicate_succ, lineWords_blank, ih, List.replicate_succ]

theorem tokens_nil : tokens [] = [] := rfl

theorem tokens_spaces (n : Nat) : tokens (List.replicate n ' ') = [] := by
  rw [tokens, lineWords_spaces]
  exact List.filter_eq_nil_iff.2 fun w hw => by rw [List.eq_of_mem_replicate hw]; decide

theorem keep_word {w : List Char} (hw : w ≠ []) : (!w.isEmpty) = true := by
  cases w with
  | nil => exact absurd rfl hw
  | cons => rfl

/-- A word and a space: the word, then the words of the rest. -/
theorem tokens_word_blank {w : List Char} (rest : List Char) (h : PlainWord w) (hw : w ≠ []) :
    tokens (w ++ ' ' :: rest) = w :: tokens rest := by
  rw [tokens, lineWords_append h (lineWords_blank rest), List.filter_cons, if_pos (keep_word hw)]
  rfl

/-- A word, a comma and a space: the word, the comma, then the words of the rest. -/
theorem tokens_word_comma {w : List Char} (rest : List Char) (h : PlainWord w) (hw : w ≠ []) :
    tokens (w ++ ',' :: ' ' :: rest) = w :: [','] :: tokens rest := by
  rw [tokens, lineWords_append h (lineWords_comma _), lineWords_blank, List.filter_cons, if_pos (keep_word hw)]
  rfl

/-- The last word of a line, which spaces may follow. -/
theorem tokens_word_spaces {w : List Char} (n : Nat) (h : PlainWord w) (hw : w ≠ []) :
    tokens (w ++ List.replicate n ' ') = [w] := by
  cases n with
  | zero =>
    rw [List.replicate_zero, List.append_nil, tokens, lineWords_last h hw, List.filter_cons, if_pos (keep_word hw)]
    rfl
  | succ n => rw [List.replicate_succ, tokens_word_blank _ h hw, tokens_spaces]

/-! ### Comments -/

theorem stripComment_append {a : List Char} (h : ∀ c ∈ a, (c == ';') = false) (b : List Char) :
    stripComment (a ++ b) = a ++ stripComment b :=
  List.takeWhile_append_of_pos fun c hc => by simp [h c hc]

/-- The end of a line leaves spaces alone, however long its comment. -/
theorem stripComment_lineEnd {tail : List Char} (h : LineEnd tail) : ∃ n, stripComment tail = List.replicate n ' ' := by
  obtain ⟨n, rest, rfl, hr⟩ := h
  refine ⟨n, ?_⟩
  rw [stripComment_append (fun c hc => by rw [List.eq_of_mem_replicate hc]; decide)]
  obtain rfl | ⟨c, rfl⟩ := hr
  · exact List.append_nil _
  · exact List.append_nil _

/-- A line whose text before its end holds no `;` is read up to spaces at its end. -/
theorem assembleLine_lineEnd {line : String} {body tail : List Char} (h : LineEnd tail)
    (hb : ∀ c ∈ body, (c == ';') = false) (hl : line.toList = body ++ tail) :
    ∃ n, stripComment line.toList = body ++ List.replicate n ' ' := by
  obtain ⟨n, hn⟩ := stripComment_lineEnd h
  exact ⟨n, by rw [hl, stripComment_append hb, hn]⟩

/-- A line whose words parse assembles to the words of the parsed line. -/
theorem assembleLine_of_tokens {line : String} {w : List Char} {ws : List (List Char)} {l : AsmLine}
    (ht : tokens (stripComment line.toList) = w :: ws) (hp : parseLine (w :: ws) = some l) :
    assembleLine line = some ((expand l).map encode) := by
  rw [assembleLine, ht]
  simp only
  rw [hp]
  rfl

/-! ### Numbers -/

theorem digitValue_hexDigit : ∀ d : BitVec 4, digitValue 16 (hexDigit d) = some d.toNat := by decide

theorem digitValue_decDigit : ∀ d : BitVec 4, d.toNat < 10 → digitValue 10 (hexDigit d) = some d.toNat := by decide

theorem hexDigit_plain : ∀ d : BitVec 4,
    isBlank (hexDigit d) = false ∧ (hexDigit d == ',') = false ∧ (hexDigit d == ';') = false := by decide

theorem digitsValue_map {base : Nat} {ds : List (BitVec 4)}
    (h : ∀ d ∈ ds, digitValue base (hexDigit d) = some d.toNat) (acc : Nat) :
    digitsValue base acc (ds.map hexDigit) = some (ds.foldl (fun n d => n * base + d.toNat) acc) := by
  induction ds generalizing acc with
  | nil => rfl
  | cons d ds ih =>
    rw [List.map_cons, digitsValue, h d (List.mem_cons_self ..)]
    exact ih (fun e he => h e (List.mem_cons_of_mem _ he)) _

theorem parseNumber_hex (d : Char) (rest : List Char) :
    parseNumber ('0' :: 'x' :: d :: rest) = digitsValue 16 0 (d :: rest) := rfl

/-- A text that starts with a decimal digit and has no `x` second is read as decimal. -/
theorem parseNumber_decimal {ds : List (BitVec 4)} (hd : ds ≠ []) (h : ∀ d ∈ ds, d.toNat < 10) :
    parseNumber (ds.map hexDigit) = digitsValue 10 0 (ds.map hexDigit) := by
  have hx : ∀ d : BitVec 4, hexDigit d ≠ 'x' := by decide
  obtain ⟨d, ds, rfl⟩ := List.exists_cons_of_ne_nil hd
  rw [List.map_cons]
  unfold parseNumber
  split
  · next heq =>
    cases ds with
    | nil => cases (List.cons.inj heq).2
    | cons e ds => exact absurd (List.cons.inj (List.cons.inj heq).2).1 (hx e)
  · next heq => rw [heq]
  · next heq => cases heq

/-- Every text of a number is read as that number, is one word and is not empty. -/
theorem NumberText.parse {cs : List Char} {n : Nat} (h : NumberText cs n) : parseNumber cs = some n := by
  obtain ⟨ds, hd, ⟨rfl, rfl⟩ | ⟨h10, rfl, rfl⟩⟩ := h
  · obtain ⟨d, ds, rfl⟩ := List.exists_cons_of_ne_nil hd
    rw [List.map_cons, parseNumber_hex, ← List.map_cons]
    exact digitsValue_map (fun d _ => digitValue_hexDigit d) 0
  · rw [parseNumber_decimal hd h10]
    exact digitsValue_map (fun d hd => digitValue_decDigit d (h10 d hd)) 0

theorem NumberText.plain {cs : List Char} {n : Nat} (h : NumberText cs n) : PlainWord cs := by
  have hm : ∀ ds : List (BitVec 4), PlainWord (ds.map hexDigit) := fun ds c hc => by
    obtain ⟨d, -, rfl⟩ := List.mem_map.1 hc
    exact hexDigit_plain d
  obtain ⟨ds, -, ⟨rfl, -⟩ | ⟨-, rfl, -⟩⟩ := h
  · intro c hc
    rcases List.mem_cons.1 hc with rfl | hc
    · decide
    · rcases List.mem_cons.1 hc with rfl | hc
      · decide
      · exact hm ds c hc
  · exact hm ds

theorem NumberText.ne_nil {cs : List Char} {n : Nat} (h : NumberText cs n) : cs ≠ [] := by
  obtain ⟨ds, hd, ⟨rfl, -⟩ | ⟨-, rfl, -⟩⟩ := h
  · exact List.cons_ne_nil _ _
  · simpa using hd

theorem NumberText.parseByte {cs : List Char} {b : Byte} (h : NumberText cs b.toNat) :
    Machine.parseByte cs = some b := by
  rw [Machine.parseByte, h.parse]
  simp only
  rw [if_pos b.isLt, BitVec.ofNat_toNat, BitVec.setWidth_eq]

theorem NumberText.parseHalf {cs : List Char} {v : Half} (h : NumberText cs v.toNat) :
    Machine.parseHalf cs = some v := by
  rw [Machine.parseHalf, h.parse]
  simp only
  rw [if_pos v.isLt, BitVec.ofNat_toNat, BitVec.setWidth_eq]

/-- No number's text is a register's name. -/
theorem NumberText.parseReg {cs : List Char} {n : Nat} (h : NumberText cs n) :
    Machine.parseReg cs = Machine.parseHalf cs := by
  have hn : ∀ r : RegName, parseNumber (regNameText r).toList ≠ some n := by
    have : ∀ r : RegName, parseNumber (regNameText r).toList = none := by intro r; cases r <;> decide
    intro r; rw [this r]; exact nofun
  have : allRegs.find? (fun r => (regNameText r).toList == cs) = none := by
    rw [List.find?_eq_none]
    intro r _ hr
    exact hn r ((congrArg parseNumber (eq_of_beq hr)).trans h.parse)
  rw [Machine.parseReg, this]

end Sys2Proof.Machine
end

