-- ==== Sys2Proof/Laws/Bits.lean ====
section
/-! SUPPORT. The halves of a 16-bit value and the fields of a command word. -/

namespace Sys2Proof.Machine

theorem pairBytes_getLsbD (a b : Byte) (i : Nat) :
    (pairBytes a b).getLsbD i = if i < 8 then b.getLsbD i else a.getLsbD (i - 8) :=
  BitVec.getLsbD_append

@[simp] theorem hiByte_pairBytes (a b : Byte) : hiByte (pairBytes a b) = a := by
  apply BitVec.eq_of_getLsbD_eq
  intro i hi
  simp [hiByte, pairBytes_getLsbD, hi]

@[simp] theorem loByte_pairBytes (a b : Byte) : loByte (pairBytes a b) = b := by
  apply BitVec.eq_of_getLsbD_eq
  intro i hi
  simp [loByte, pairBytes_getLsbD, hi]

@[simp] theorem pairBytes_halves (h : Half) : pairBytes (hiByte h) (loByte h) = h := by
  apply BitVec.eq_of_getLsbD_eq
  intro i hi
  rw [pairBytes_getLsbD]
  split
  · next h8 => simp [loByte, h8]
  · next h8 =>
    rw [hiByte, BitVec.getLsbD_extractLsb', show 8 + (i - 8) = i by omega]
    simp [show i - 8 < 8 by omega]

theorem pairBytes_toNat (a b : Byte) : (pairBytes a b).toNat = a.toNat * 256 + b.toNat := by
  have e : (pairBytes a b).toNat = a.toNat <<< 8 ||| b.toNat := BitVec.toNat_append a b
  rw [e, Nat.shiftLeft_eq, Nat.mul_comm, ← Nat.two_pow_add_eq_or_of_lt b.isLt, Nat.mul_comm]

theorem pairBytes_inj {a b c d : Byte} (h : pairBytes a b = pairBytes c d) : a = c ∧ b = d :=
  ⟨by simpa using congrArg hiByte h, by simpa using congrArg loByte h⟩

end Sys2Proof.Machine

namespace Sys2Proof

/-- A command word made of its two fields. -/
theorem word_getLsbD (op : Byte) (imm : Half) (i : Nat) :
    (op ++ imm : CmdWord).getLsbD i = if i < 16 then imm.getLsbD i else op.getLsbD (i - 16) :=
  BitVec.getLsbD_append

@[simp] theorem wordOp_fields (op : Byte) (imm : Half) : wordOp (op ++ imm) = op := by
  apply BitVec.eq_of_getLsbD_eq
  intro i hi
  rw [wordOp, BitVec.getLsbD_extractLsb', word_getLsbD]
  simp [hi]

@[simp] theorem wordImm_fields (op : Byte) (imm : Half) : wordImm (op ++ imm) = imm := by
  apply BitVec.eq_of_getLsbD_eq
  intro i hi
  rw [wordImm, BitVec.getLsbD_extractLsb', word_getLsbD]
  simp [hi]

/-- A word is its two fields. -/
theorem word_of_fields (w : CmdWord) : wordOp w ++ wordImm w = w := by
  apply BitVec.eq_of_getLsbD_eq
  intro i hi
  rw [word_getLsbD]
  split
  · next h => simp [wordImm, h]
  · next h =>
    rw [wordOp, BitVec.getLsbD_extractLsb', show 16 + (i - 16) = i by omega]
    simp [show i - 16 < 8 by omega]

end Sys2Proof
end

