-- ==== Sys2Proof/Laws/Memory.lean ====
section
/-! SUPPORT. The laws of `PBUF` (20_memory.md R50): a read after a write, and that a write keeps the canonical form. -/

namespace Sys2Proof.Machine

@[simp] theorem Memory.read_nil (i : Nat) : Memory.read [] i = unwrittenByte := rfl

@[simp] theorem Memory.read_cons (j i : Nat) (v : Byte) (m : Memory) :
    Memory.read ((j, v) :: m) i = if j = i then v else Memory.read m i := rfl

theorem Memory.wfFrom_cons {lo j : Nat} {v : Byte} {m : Memory} :
    Memory.wfFrom lo ((j, v) :: m) = true ↔
      lo ≤ j ∧ byteExists j = true ∧ v ≠ unwrittenByte ∧ Memory.wfFrom (j + 1) m = true := by
  simp [Memory.wfFrom, and_assoc]

theorem Memory.wfFrom_mono {lo lo' : Nat} {m : Memory} (h : Memory.wfFrom lo m = true) (hl : lo' ≤ lo) :
    Memory.wfFrom lo' m = true := by
  cases m with
  | nil => rfl
  | cons c m =>
    obtain ⟨j, v⟩ := c
    rw [Memory.wfFrom_cons] at h ⊢
    exact ⟨hl.trans h.1, h.2⟩

/-- Below its first index a memory in canonical form holds nothing. -/
theorem Memory.read_below {lo i : Nat} {m : Memory} (h : Memory.wfFrom lo m = true) (hi : i < lo) :
    m.read i = unwrittenByte := by
  induction m generalizing lo with
  | nil => rfl
  | cons c m ih =>
    obtain ⟨j, v⟩ := c
    obtain ⟨h1, -, -, h4⟩ := Memory.wfFrom_cons.1 h
    rw [Memory.read_cons, if_neg (by omega)]
    exact ih h4 (by omega)

theorem Memory.write_wfFrom {lo i : Nat} {v : Byte} {m : Memory} (h : Memory.wfFrom lo m = true) (hi : lo ≤ i)
    (hb : byteExists i = true) : Memory.wfFrom lo (m.write i v) = true := by
  induction m generalizing lo with
  | nil =>
    unfold Memory.write
    split
    · rfl
    · next hv => exact Memory.wfFrom_cons.2 ⟨hi, hb, hv, rfl⟩
  | cons c m ih =>
    obtain ⟨j, w⟩ := c
    obtain ⟨h1, h2, h3, h4⟩ := Memory.wfFrom_cons.1 h
    unfold Memory.write
    split
    · next hij =>
      split
      · exact h
      · next hv => exact Memory.wfFrom_cons.2 ⟨hi, hb, hv, Memory.wfFrom_cons.2 ⟨hij, h2, h3, h4⟩⟩
    · split
      · next hij =>
        split
        · exact Memory.wfFrom_mono h4 (by omega)
        · next hv => exact Memory.wfFrom_cons.2 ⟨hi, hb, hv, hij ▸ h4⟩
      · next hlt hne => exact Memory.wfFrom_cons.2 ⟨h1, h2, h3, ih h4 (by omega)⟩

/-- Every write to a byte that exists keeps the canonical form. -/
theorem Memory.write_wf {i : Nat} {v : Byte} {m : Memory} (h : m.wf = true) (hb : byteExists i = true) :
    (m.write i v).wf = true := Memory.write_wfFrom h (Nat.zero_le i) hb

theorem Memory.read_write_same_from {lo : Nat} {m : Memory} (i : Nat) (v : Byte) (h : Memory.wfFrom lo m = true) :
    (m.write i v).read i = v := by
  induction m generalizing lo with
  | nil => unfold Memory.write; split <;> simp_all
  | cons c m ih =>
    obtain ⟨j, w⟩ := c
    obtain ⟨h1, h2, h3, h4⟩ := Memory.wfFrom_cons.1 h
    unfold Memory.write
    split
    · next hij =>
      split
      · next hv =>
        rw [Memory.read_cons, if_neg (by omega), Memory.read_below h4 (by omega), hv]
      · simp
    · split
      · next hij =>
        split
        · next hv => rw [Memory.read_below h4 (by omega), hv]
        · simp
      · next hlt hne => rw [Memory.read_cons, if_neg (by omega)]; exact ih h4

/-- A read after a write to the same index gives the byte written. -/
@[simp] theorem Memory.read_write_same {m : Memory} (i : Nat) (v : Byte) (h : m.wf = true) :
    (m.write i v).read i = v := Memory.read_write_same_from i v h

/-- A write leaves every other index alone. -/
theorem Memory.read_write_other {m : Memory} {i a : Nat} (v : Byte) (ha : a ≠ i) :
    (m.write i v).read a = m.read a := by
  induction m with
  | nil => unfold Memory.write; split <;> simp [Ne.symm ha]
  | cons c m ih =>
    obtain ⟨j, w⟩ := c
    unfold Memory.write
    split
    · split
      · rfl
      · simp [Ne.symm ha]
    · split
      · next hij =>
        subst hij
        split <;> simp [Ne.symm ha]
      · simp [ih]

/-- All `memWrite` can do. -/
theorem memWrite_next {i : Nat} {v : Byte} {s t : State} :
    memWrite i v s = .next t ↔ byteExists i = true ∧ t = { s with pbuf := s.pbuf.write i v } := by
  unfold memWrite
  split
  · next h => simp [h, eq_comm]
  · next h => simp [h]

/-- An index below `PAYLOAD_CAP` is written. -/
theorem memWrite_of_lt {i : Nat} {v : Byte} {s : State} (h : i < Config.payloadCap) :
    memWrite i v s = .next { s with pbuf := s.pbuf.write i v } :=
  memWrite_next.2 ⟨by simpa [byteExists] using h, rfl⟩

/-- The memory after reset is in canonical form. -/
theorem Memory.wf_reset : State.reset.pbuf.wf = true := rfl

end Sys2Proof.Machine
end

