-- ==== Sys2Proof/Laws/State.lean ====
section
/-! SUPPORT. One lemma per field per named update of State, true by rfl, so that no proof unfolds an update. -/

namespace Sys2Proof.Machine

variable (s : State)

/-! ### respond -/

@[simp] theorem respond_crc (c : RspCode) (d : Word) : (respond c d s).crc = s.crc := rfl
@[simp] theorem respond_sync (c : RspCode) (d : Word) : (respond c d s).sync = s.sync := rfl
@[simp] theorem respond_fbase (c : RspCode) (d : Word) : (respond c d s).fbase = s.fbase := rfl
@[simp] theorem respond_frsv (c : RspCode) (d : Word) : (respond c d s).frsv = s.frsv := rfl
@[simp] theorem respond_flen (c : RspCode) (d : Word) : (respond c d s).flen = s.flen := rfl
@[simp] theorem respond_pcnt (c : RspCode) (d : Word) : (respond c d s).pcnt = s.pcnt := rfl
@[simp] theorem respond_scrc (c : RspCode) (d : Word) : (respond c d s).scrc = s.scrc := rfl
@[simp] theorem respond_rxcrc (c : RspCode) (d : Word) : (respond c d s).rxcrc = s.rxcrc := rfl
@[simp] theorem respond_pos (c : RspCode) (d : Word) : (respond c d s).pos = s.pos := rfl
@[simp] theorem respond_fstart (c : RspCode) (d : Word) : (respond c d s).fstart = s.fstart := rfl
@[simp] theorem respond_hidx (c : RspCode) (d : Word) : (respond c d s).hidx = s.hidx := rfl
@[simp] theorem respond_st (c : RspCode) (d : Word) : (respond c d s).st = s.st := rfl
@[simp] theorem respond_pbuf (c : RspCode) (d : Word) : (respond c d s).pbuf = s.pbuf := rfl
@[simp] theorem respond_input (c : RspCode) (d : Word) : (respond c d s).input = s.input := rfl
@[simp] theorem respond_rsp (c : RspCode) (d : Word) : (respond c d s).rsp = some ⟨c, d⟩ := rfl

/-! ### raiseError -/

@[simp] theorem raiseError_crc (e : RspCode) : (raiseError e s).crc = s.crc := rfl
@[simp] theorem raiseError_sync (e : RspCode) : (raiseError e s).sync = s.sync := rfl
@[simp] theorem raiseError_fbase (e : RspCode) : (raiseError e s).fbase = s.fbase := rfl
@[simp] theorem raiseError_frsv (e : RspCode) : (raiseError e s).frsv = s.frsv := rfl
@[simp] theorem raiseError_flen (e : RspCode) : (raiseError e s).flen = s.flen := rfl
@[simp] theorem raiseError_pcnt (e : RspCode) : (raiseError e s).pcnt = s.pcnt := rfl
@[simp] theorem raiseError_scrc (e : RspCode) : (raiseError e s).scrc = s.scrc := rfl
@[simp] theorem raiseError_rxcrc (e : RspCode) : (raiseError e s).rxcrc = s.rxcrc := rfl
@[simp] theorem raiseError_pos (e : RspCode) : (raiseError e s).pos = s.pos := rfl
@[simp] theorem raiseError_fstart (e : RspCode) : (raiseError e s).fstart = s.fstart := rfl
@[simp] theorem raiseError_hidx (e : RspCode) : (raiseError e s).hidx = s.hidx := rfl
@[simp] theorem raiseError_st (e : RspCode) : (raiseError e s).st = s.st := rfl
@[simp] theorem raiseError_pbuf (e : RspCode) : (raiseError e s).pbuf = s.pbuf := rfl
@[simp] theorem raiseError_input (e : RspCode) : (raiseError e s).input = s.input := rfl
@[simp] theorem raiseError_rsp (e : RspCode) : (raiseError e s).rsp = some ⟨e, 0⟩ := rfl

/-! ### advancePos -/

@[simp] theorem advancePos_crc : (advancePos s).crc = s.crc := rfl
@[simp] theorem advancePos_sync : (advancePos s).sync = s.sync := rfl
@[simp] theorem advancePos_fbase : (advancePos s).fbase = s.fbase := rfl
@[simp] theorem advancePos_frsv : (advancePos s).frsv = s.frsv := rfl
@[simp] theorem advancePos_flen : (advancePos s).flen = s.flen := rfl
@[simp] theorem advancePos_pcnt : (advancePos s).pcnt = s.pcnt := rfl
@[simp] theorem advancePos_scrc : (advancePos s).scrc = s.scrc := rfl
@[simp] theorem advancePos_rxcrc : (advancePos s).rxcrc = s.rxcrc := rfl
@[simp] theorem advancePos_pos : (advancePos s).pos = s.pos + 1 := rfl
@[simp] theorem advancePos_fstart : (advancePos s).fstart = s.fstart := rfl
@[simp] theorem advancePos_hidx : (advancePos s).hidx = s.hidx := rfl
@[simp] theorem advancePos_st : (advancePos s).st = s.st := rfl
@[simp] theorem advancePos_pbuf : (advancePos s).pbuf = s.pbuf := rfl
@[simp] theorem advancePos_input : (advancePos s).input = s.input := rfl
@[simp] theorem advancePos_rsp : (advancePos s).rsp = s.rsp := rfl

/-! ### consumed -/

@[simp] theorem consumed_crc : (consumed s).crc = s.crc := rfl
@[simp] theorem consumed_sync : (consumed s).sync = s.sync := rfl
@[simp] theorem consumed_fbase : (consumed s).fbase = s.fbase := rfl
@[simp] theorem consumed_frsv : (consumed s).frsv = s.frsv := rfl
@[simp] theorem consumed_flen : (consumed s).flen = s.flen := rfl
@[simp] theorem consumed_pcnt : (consumed s).pcnt = s.pcnt := rfl
@[simp] theorem consumed_scrc : (consumed s).scrc = s.scrc := rfl
@[simp] theorem consumed_rxcrc : (consumed s).rxcrc = s.rxcrc := rfl
@[simp] theorem consumed_pos : (consumed s).pos = s.pos + 1 := rfl
@[simp] theorem consumed_fstart : (consumed s).fstart = s.fstart := rfl
@[simp] theorem consumed_hidx : (consumed s).hidx = s.hidx := rfl
@[simp] theorem consumed_st : (consumed s).st = s.st := rfl
@[simp] theorem consumed_pbuf : (consumed s).pbuf = s.pbuf := rfl
@[simp] theorem consumed_input : (consumed s).input = s.input := rfl
@[simp] theorem consumed_rsp : (consumed s).rsp = some ⟨.ok, 0⟩ := rfl

/-! ### restartScan -/

@[simp] theorem restartScan_crc : (restartScan s).crc = s.crc := rfl
@[simp] theorem restartScan_sync : (restartScan s).sync = s.sync := rfl
@[simp] theorem restartScan_fbase : (restartScan s).fbase = s.fbase := rfl
@[simp] theorem restartScan_frsv : (restartScan s).frsv = 0 := rfl
@[simp] theorem restartScan_flen : (restartScan s).flen = 0 := rfl
@[simp] theorem restartScan_pcnt : (restartScan s).pcnt = 0 := rfl
@[simp] theorem restartScan_scrc : (restartScan s).scrc = Config.seed := rfl
@[simp] theorem restartScan_rxcrc : (restartScan s).rxcrc = 0 := rfl
@[simp] theorem restartScan_pos : (restartScan s).pos = 0 := rfl
@[simp] theorem restartScan_fstart : (restartScan s).fstart = 0 := rfl
@[simp] theorem restartScan_hidx : (restartScan s).hidx = 0 := rfl
@[simp] theorem restartScan_st : (restartScan s).st = .hunt := rfl
@[simp] theorem restartScan_pbuf : (restartScan s).pbuf = s.pbuf := rfl
@[simp] theorem restartScan_input : (restartScan s).input = s.input := rfl
@[simp] theorem restartScan_rsp : (restartScan s).rsp = s.rsp := rfl

/-! ### idle -/

@[simp] theorem idle_crc : (idle s).crc = s.crc := rfl
@[simp] theorem idle_sync : (idle s).sync = s.sync := rfl
@[simp] theorem idle_fbase : (idle s).fbase = s.fbase := rfl
@[simp] theorem idle_frsv : (idle s).frsv = s.frsv := rfl
@[simp] theorem idle_flen : (idle s).flen = s.flen := rfl
@[simp] theorem idle_pcnt : (idle s).pcnt = s.pcnt := rfl
@[simp] theorem idle_scrc : (idle s).scrc = s.scrc := rfl
@[simp] theorem idle_rxcrc : (idle s).rxcrc = s.rxcrc := rfl
@[simp] theorem idle_pos : (idle s).pos = s.pos := rfl
@[simp] theorem idle_fstart : (idle s).fstart = s.fstart := rfl
@[simp] theorem idle_hidx : (idle s).hidx = s.hidx := rfl
@[simp] theorem idle_st : (idle s).st = s.st := rfl
@[simp] theorem idle_pbuf : (idle s).pbuf = s.pbuf := rfl
@[simp] theorem idle_input : (idle s).input = s.input := rfl
@[simp] theorem idle_rsp : (idle s).rsp = none := rfl

/-! ### resetBlock -/

@[simp] theorem resetBlock_crc : (resetBlock s).crc = 0xFF := rfl
@[simp] theorem resetBlock_sync : (resetBlock s).sync = Config.syncReset := rfl
@[simp] theorem resetBlock_fbase : (resetBlock s).fbase = 0 := rfl
@[simp] theorem resetBlock_frsv : (resetBlock s).frsv = 0 := rfl
@[simp] theorem resetBlock_flen : (resetBlock s).flen = 0 := rfl
@[simp] theorem resetBlock_pcnt : (resetBlock s).pcnt = 0 := rfl
@[simp] theorem resetBlock_scrc : (resetBlock s).scrc = Config.seed := rfl
@[simp] theorem resetBlock_rxcrc : (resetBlock s).rxcrc = 0 := rfl
@[simp] theorem resetBlock_pos : (resetBlock s).pos = 0 := rfl
@[simp] theorem resetBlock_fstart : (resetBlock s).fstart = 0 := rfl
@[simp] theorem resetBlock_hidx : (resetBlock s).hidx = 0 := rfl
@[simp] theorem resetBlock_st : (resetBlock s).st = .hunt := rfl
@[simp] theorem resetBlock_pbuf : (resetBlock s).pbuf = [] := rfl
@[simp] theorem resetBlock_input : (resetBlock s).input = s.input := rfl
@[simp] theorem resetBlock_rsp : (resetBlock s).rsp = none := rfl

/-! ### withFetchWord -/

@[simp] theorem withFetchWord_crc (n w : Nat) : (s.withFetchWord n w).crc = s.crc := rfl
@[simp] theorem withFetchWord_sync (n w : Nat) : (s.withFetchWord n w).sync = s.sync := rfl
@[simp] theorem withFetchWord_fbase (n w : Nat) : (s.withFetchWord n w).fbase = s.fbase := rfl
@[simp] theorem withFetchWord_frsv (n w : Nat) : (s.withFetchWord n w).frsv = s.frsv := rfl
@[simp] theorem withFetchWord_flen (n w : Nat) : (s.withFetchWord n w).flen = s.flen := rfl
@[simp] theorem withFetchWord_pcnt (n w : Nat) : (s.withFetchWord n w).pcnt = s.pcnt := rfl
@[simp] theorem withFetchWord_scrc (n w : Nat) : (s.withFetchWord n w).scrc = s.scrc := rfl
@[simp] theorem withFetchWord_rxcrc (n w : Nat) : (s.withFetchWord n w).rxcrc = s.rxcrc := rfl
@[simp] theorem withFetchWord_pos (n w : Nat) : (s.withFetchWord n w).pos = s.pos := rfl
@[simp] theorem withFetchWord_fstart (n w : Nat) : (s.withFetchWord n w).fstart = s.fstart := rfl
@[simp] theorem withFetchWord_hidx (n w : Nat) : (s.withFetchWord n w).hidx = s.hidx := rfl
@[simp] theorem withFetchWord_st (n w : Nat) : (s.withFetchWord n w).st = s.st := rfl
@[simp] theorem withFetchWord_pbuf (n w : Nat) : (s.withFetchWord n w).pbuf = s.pbuf := rfl
@[simp] theorem withFetchWord_input (n w : Nat) : (s.withFetchWord n w).input = tableCommand n w :: s.input := rfl
@[simp] theorem withFetchWord_rsp (n w : Nat) : (s.withFetchWord n w).rsp = s.rsp := rfl

/-! ### outcomes -/

@[simp] theorem nextOf_next : nextOf (.next s) = some s := rfl
@[simp] theorem nextOf_fault (f : Fault) : nextOf (.fault f) = none := rfl
@[simp] theorem nextOf_refused (r : Refusal) : nextOf (.refused r) = none := rfl

end Sys2Proof.Machine
end

