-- ==== Sys2Proof/Laws/Exec.lean ====
section
/-! SUPPORT. What each command answers, said once: an equation per meaning, and for `SCAN_BYTE` one per scanner state. -/

namespace Sys2Proof.Machine

theorem exec_nop (s : State) : exec .nop s = .next (respond .ok 0 s) := rfl

theorem exec_crcInit (b : Byte) (s : State) : exec (.crcInit b) s = .next (respond .ok 0 { s with crc := b }) := rfl

theorem exec_crcByte (b : Byte) (s : State) :
    exec (.crcByte b) s = .next (respond .ok 0 { s with crc := crc8Step s.crc b }) := rfl

theorem exec_setSync (h : Half) (s : State) :
    exec (.setSync h) s = .next (respond .ok 0 (restartScan { s with sync := h })) := rfl

theorem exec_scanStart (h : Half) (s : State) :
    exec (.scanStart h) s = .next (respond .ok 0 (restartScan { s with fbase := h })) := rfl

theorem payloadReadable_iff {h : Half} {s : State} :
    payloadReadable h s = true ↔ s.st = .doneFound ∧ h.toNat < s.flen.toNat := by
  simp [payloadReadable]

theorem exec_payloadRead (h : Half) (s : State) : exec (.payloadRead h) s =
    .next (if s.st = .doneFound ∧ h.toNat < s.flen.toNat
      then respond .ok ((s.pbuf.read h.toNat).setWidth 32) s else respond .errRange 0 s) := by
  by_cases c : s.st = .doneFound ∧ h.toNat < s.flen.toNat
  · rw [if_pos c]; exact if_pos (payloadReadable_iff.2 c)
  · rw [if_neg c]; exact if_neg (fun e => c (payloadReadable_iff.1 e))

theorem exec_regRead (h : Half) (s : State) : exec (.regRead h) s =
    .next (match regOfNumber h with
      | some r => respond .ok (readReg r s) s
      | none => respond .errIllegal 0 s) := by
  show execRegRead h s = _
  unfold execRegRead
  cases regOfNumber h <;> rfl

/-- A number below 12 is its register's, any other names none. -/
theorem regOfNumber_number (r : RegName) : regOfNumber (regNumber r) = some r := by
  cases r <;> rfl

theorem regOfNumber_none {h : Half} : regOfNumber h = none ↔ 0x000C ≤ h.toNat := by
  unfold regOfNumber
  split
  all_goals simp_all
  omega

/-! ### SCAN_BYTE, by scanner state -/

theorem exec_scanByte_hunt {s : State} (h : s.st = .hunt) (b : Byte) :
    exec (.scanByte b) s = .next (scanHunt b s) := by
  show execScanByte b s = _; unfold execScanByte; rw [h]

theorem exec_scanByte_sync1 {s : State} (h : s.st = .sync1) (b : Byte) :
    exec (.scanByte b) s = .next (scanSync1 b s) := by
  show execScanByte b s = _; unfold execScanByte; rw [h]

theorem exec_scanByte_hdr {s : State} (h : s.st = .hdr) (b : Byte) :
    exec (.scanByte b) s = .next (scanHdr b s) := by
  show execScanByte b s = _; unfold execScanByte; rw [h]

theorem exec_scanByte_check {s : State} (h : s.st = .check) (b : Byte) :
    exec (.scanByte b) s = .next (scanCheck b s) := by
  show execScanByte b s = _; unfold execScanByte; rw [h]

theorem exec_scanByte_final {s : State} (h : isFinal s.st = true) (b : Byte) :
    exec (.scanByte b) s = .next (scanIgnored s) := by
  show execScanByte b s = _; unfold execScanByte
  cases e : s.st <;> simp_all [isFinal]

/-- The state after a payload byte. -/
def afterPayload (b : Byte) (s : State) : State :=
  { consumed { s with
      scrc := crc8Step s.scrc b,
      st := if s.pcnt + 1 = s.flen then .check else s.st,
      pcnt := s.pcnt + 1 } with pbuf := s.pbuf.write s.pcnt.toNat b }

theorem exec_scanByte_payload_iff {s t : State} (h : s.st = .payload) (b : Byte) :
    exec (.scanByte b) s = .next t ↔ byteExists s.pcnt.toNat = true ∧ t = afterPayload b s := by
  have : exec (.scanByte b) s = scanPayload b s := by
    show execScanByte b s = _; unfold execScanByte; rw [h]
  rw [this]
  exact memWrite_next

theorem exec_scanByte_payload {s : State} (h : s.st = .payload) (hp : s.pcnt.toNat < s.flen.toNat) (b : Byte) :
    exec (.scanByte b) s = .next (afterPayload b s) := by
  refine (exec_scanByte_payload_iff h b).2 ⟨?_, rfl⟩
  have := s.flen.isLt
  exact decide_eq_true (show s.pcnt.toNat < 65535 by omega)

/-- All a `SCAN_BYTE` that completes can do: one case per transition. -/
theorem scanByte_cases {b : Byte} {s t : State} (h : exec (.scanByte b) s = .next t) :
    (s.st = .hunt ∧ t = scanHunt b s) ∨ (s.st = .sync1 ∧ t = scanSync1 b s) ∨ (s.st = .hdr ∧ t = scanHdr b s) ∨
    (s.st = .payload ∧ byteExists s.pcnt.toNat = true ∧ t = afterPayload b s) ∨
    (s.st = .check ∧ t = scanCheck b s) ∨ (isFinal s.st = true ∧ t = scanIgnored s) := by
  cases e : s.st with
  | hunt => rw [exec_scanByte_hunt e] at h; cases h; simp
  | sync1 => rw [exec_scanByte_sync1 e] at h; cases h; simp
  | hdr => rw [exec_scanByte_hdr e] at h; cases h; simp
  | payload => obtain ⟨h1, h2⟩ := (exec_scanByte_payload_iff e b).1 h; simp [h1, h2]
  | check => rw [exec_scanByte_check e] at h; cases h; simp
  | doneFound => rw [exec_scanByte_final (by rw [e]; rfl)] at h; cases h; simp [isFinal]
  | doneMismatch => rw [exec_scanByte_final (by rw [e]; rfl)] at h; cases h; simp [isFinal]

/-! ### A step -/

theorem step_nil {s : State} (h : s.input = []) : step s = .next (idle s) := by
  unfold step; rw [h]

theorem step_cons {s : State} {x : HostInput} {rest : List HostInput} (h : s.input = x :: rest) :
    step s = acceptInput x { s with input := rest } := by
  unfold step; rw [h]

theorem acceptWord_ok {w : CmdWord} {i : Instr} (h : decode w = .ok i) (s : State) : acceptWord w s = exec i s := by
  unfold acceptWord; rw [h]

theorem acceptWord_error {w : CmdWord} {e : IllegalWord} (h : decode w = .error e) (s : State) :
    acceptWord w s = .next (raiseError .errIllegal s) := by
  unfold acceptWord; rw [h]

/-- All a step can do. -/
theorem step_cases {s t : State} (h : step s = .next t) :
    (s.input = [] ∧ t = idle s) ∨
    (∃ c rest, s.input = .reset c :: rest ∧ t = resetBlock { s with input := rest }) ∨
    (∃ w rest e, s.input = .command w :: rest ∧ decode w = .error e ∧
      t = raiseError .errIllegal { s with input := rest }) ∨
    (∃ w rest i, s.input = .command w :: rest ∧ decode w = .ok i ∧ exec i { s with input := rest } = .next t) := by
  cases hi : s.input with
  | nil => rw [step_nil hi] at h; cases h; exact .inl ⟨rfl, rfl⟩
  | cons x rest =>
    rw [step_cons hi] at h
    cases x with
    | reset c => cases h; exact .inr (.inl ⟨c, rest, rfl, rfl⟩)
    | command w =>
      change acceptWord w _ = _ at h
      cases hd : decode w with
      | error e => rw [acceptWord_error hd] at h; cases h; exact .inr (.inr (.inl ⟨w, rest, e, rfl, hd, rfl⟩))
      | ok i => rw [acceptWord_ok hd] at h; exact .inr (.inr (.inr ⟨w, rest, i, rfl, hd, h⟩))

end Sys2Proof.Machine
end

