-- ==== Sys2Proof/Laws/PerInstr.lean ====
section
/-! SUPPORT. One family of statements about each command as it is written: its word carries its opcode and its `IMM`, and the
`IMM` is legal for its form (30_encoding.md R71 to R73, R78). -/

namespace Sys2Proof.Laws.Encodes

/-- The word of `i` is `{OP, IMM}` with `i`'s opcode, and its `IMM` is legal for its form. -/
def Statement (i : Instr) : Prop :=
  wordOp (encode i) = opcodeOf i ∧ wordImm (encode i) = Machine.immOf i ∧ i.wellFormed = true

theorem nop : Statement .nop := ⟨wordOp_fields _ _, wordImm_fields _ _, rfl⟩

theorem crcInit (b : Byte) : Statement (.crcInit b) :=
  ⟨wordOp_fields _ _, wordImm_fields _ _, by simp [Instr.wellFormed, Machine.immLegal, Machine.formOf, Machine.immOf]⟩

theorem crcByte (b : Byte) : Statement (.crcByte b) :=
  ⟨wordOp_fields _ _, wordImm_fields _ _, by simp [Instr.wellFormed, Machine.immLegal, Machine.formOf, Machine.immOf]⟩

theorem setSync (h : Half) : Statement (.setSync h) := ⟨wordOp_fields _ _, wordImm_fields _ _, rfl⟩

theorem scanStart (h : Half) : Statement (.scanStart h) := ⟨wordOp_fields _ _, wordImm_fields _ _, rfl⟩

theorem scanByte (b : Byte) : Statement (.scanByte b) :=
  ⟨wordOp_fields _ _, wordImm_fields _ _, by simp [Instr.wellFormed, Machine.immLegal, Machine.formOf, Machine.immOf]⟩

theorem payloadRead (h : Half) : Statement (.payloadRead h) := ⟨wordOp_fields _ _, wordImm_fields _ _, rfl⟩

theorem regRead (h : Half) : Statement (.regRead h) := ⟨wordOp_fields _ _, wordImm_fields _ _, rfl⟩

end Sys2Proof.Laws.Encodes
end

