-- ==== Sys2Proof/Laws/Reference.lean ====
section
/-! SUPPORT. `scan` by whether a marker is found, bytes and slices of joined buffers, and one step of a run. -/

namespace Sys2Proof.Machine

theorem scan_of_no_marker {buf : List Byte} {m0 m1 : Byte} (h : findMarker m0 m1 buf = none) (a : Half) :
    scan buf m0 m1 a = (.notFound, .frameNotFound) := by
  unfold scan; rw [h]

/-- `scan` once the marker is found, with the header's length written out. -/
theorem scan_of_marker {buf : List Byte} {m0 m1 : Byte} {s : Nat} (h : findMarker m0 m1 buf = some s) (a : Half) :
    scan buf m0 m1 a =
      if buf.length < s + 6 then (.truncated, .frameTruncated)
      else if buf.length < s + 6 + lengthField buf s + 1 then (.truncated, .frameTruncated)
      else if checksum Config.seed (slice buf s (s + 6 + lengthField buf s)) = byteAt buf (s + 6 + lengthField buf s) then
        (.found a (slice buf (s + 6) (s + 6 + lengthField buf s)), .found)
      else (.notFound, .checksumMismatch) := by
  unfold scan; rw [h]; rfl

theorem byteAt_append_left {a b : List Byte} {i : Nat} (h : i < a.length) : byteAt (a ++ b) i = byteAt a i := by
  simp [byteAt, List.getElem?_append, h]

theorem byteAt_append_right (a b : List Byte) (k : Nat) : byteAt (a ++ b) (a.length + k) = byteAt b k := by
  simp [byteAt, List.getElem?_append]

theorem slice_middle (pre mid post : List Byte) :
    slice (pre ++ mid ++ post) pre.length (pre.length + mid.length) = mid := by
  simp [slice]

/-- A core's run takes one step at a time. -/
theorem core_run_step (M : Host.Core) {n : Nat} {s t : M.State} (h : M.step s = .next t) :
    M.run (n + 1) s = M.run n t := by
  rw [Host.Core.run, h]

theorem runFor_zero (s : State) : runFor 0 s = .next s := rfl

theorem runFor_step {n : Nat} {s t : State} (h : step s = .next t) : runFor (n + 1) s = runFor n t :=
  core_run_step Sys2Proof.core h

/-- What `PAYLOAD_READ` answers. -/
theorem answer_payloadRead (h : Half) (s : State) : answer (.payloadRead h) s =
    some (if s.st = .doneFound ∧ h.toNat < s.flen.toNat then ⟨.ok, (s.pbuf.read h.toNat).setWidth 32⟩
      else ⟨.errRange, 0⟩) := by
  unfold answer
  rw [exec_payloadRead]
  split <;> rfl

/-- What `REG_READ` of a register answers. -/
theorem answer_regRead (r : RegName) (s : State) :
    answer (.regRead (regNumber r)) s = some ⟨.ok, readReg r s⟩ := by
  unfold answer
  rw [exec_regRead, regOfNumber_number]
  rfl

end Sys2Proof.Machine
end

