-- ==== Sys2Proof/Laws/Tracks.lean ====
section
/-! SUPPORT. `Tracks` by scanner state, so that no proof unfolds its match. -/

namespace Sys2Proof.Machine

variable {s : State} {buf : List Byte}

theorem tracks_hunt (h : s.st = .hunt) :
    Tracks s buf ↔ Searching s buf ∧ s.hidx = 0 ∧ buf.getLast? ≠ some (markerFirst s) := by
  unfold Tracks; rw [h]

theorem tracks_sync1 (h : s.st = .sync1) :
    Tracks s buf ↔ Searching s buf ∧ s.hidx = 1 ∧ buf.getLast? = some (markerFirst s) := by
  unfold Tracks; rw [h]

theorem tracks_hdr (h : s.st = .hdr) :
    Tracks s buf ↔ ∃ pre hdr, buf = pre ++ hdr ∧ FrameSoFar s pre hdr [] ∧ 2 ≤ hdr.length ∧ hdr.length ≤ 5 ∧
      s.rxcrc = 0 ∧ s.pos = BitVec.ofNat 32 buf.length := by
  unfold Tracks; rw [h]

theorem tracks_payload (h : s.st = .payload) :
    Tracks s buf ↔ ∃ pre hdr pay, buf = pre ++ hdr ++ pay ∧ FrameSoFar s pre hdr pay ∧ hdr.length = 6 ∧
      pay.length < s.flen.toNat ∧ s.rxcrc = 0 ∧ s.pos = BitVec.ofNat 32 buf.length := by
  unfold Tracks; rw [h]

theorem tracks_check (h : s.st = .check) :
    Tracks s buf ↔ ∃ pre hdr pay, buf = pre ++ hdr ++ pay ∧ FrameSoFar s pre hdr pay ∧ hdr.length = 6 ∧
      pay.length = s.flen.toNat ∧ s.rxcrc = 0 ∧ s.pos = BitVec.ofNat 32 buf.length := by
  unfold Tracks; rw [h]

theorem tracks_doneFound (h : s.st = .doneFound) :
    Tracks s buf ↔ ∃ pre hdr pay more, buf = pre ++ hdr ++ pay ++ s.rxcrc :: more ∧ FrameSoFar s pre hdr pay ∧
      hdr.length = 6 ∧ pay.length = s.flen.toNat ∧ s.rxcrc = s.scrc ∧
      s.pos = BitVec.ofNat 32 (pre.length + 6 + pay.length + 1) := by
  unfold Tracks; rw [h]

theorem tracks_doneMismatch (h : s.st = .doneMismatch) :
    Tracks s buf ↔ ∃ pre hdr pay more, buf = pre ++ hdr ++ pay ++ s.rxcrc :: more ∧ FrameSoFar s pre hdr pay ∧
      hdr.length = 6 ∧ pay.length = s.flen.toNat ∧ s.rxcrc ≠ s.scrc ∧
      s.pos = BitVec.ofNat 32 (pre.length + 6 + pay.length + 1) := by
  unfold Tracks; rw [h]

end Sys2Proof.Machine
end

