-- ==== Sys2Proof/Tests/Slice0.lean ====
section
/-! SUPPORT. Tests from the spec's own vectors (95_test_vectors.md), well-formedness smoke tests, and one witness for the
hypotheses of each statement. Expected values come from the spec's tables and examples, never from the model. -/

namespace Sys2Proof.Tests

open Sys2Proof.Machine

/-! ### Helpers -/

/-- A state after reset but for the scanner's place in a frame at offset 0. -/
def atScan (st : ScanState) (hidx : BitVec 3) (flen pcnt : Half) (scrc rxcrc : Byte) (pos : Word) : State :=
  { State.reset with st := st, hidx := hidx, flen := flen, pcnt := pcnt, scrc := scrc, rxcrc := rxcrc, pos := pos }

/-- X2: `1A`. -/
def x2 : State := atScan .sync1 1 0 0 0xFF 0 1
/-- X3: `1A CF`. -/
def x3 : State := atScan .hdr 2 0 0 0x61 0 2
/-- X17: `1A CF 00 00 00`. -/
def x17 : State := atScan .hdr 5 0 0 0xAE 0 5
/-- X15: `1A CF 00 00 00 01`. -/
def x15 : State := atScan .payload 6 1 0 0x44 0 6
/-- X16: `1A CF 00 00 00 01 02`. -/
def x16 : State := { atScan .check 6 1 1 0xD5 0 7 with pbuf := [(0, 0x02)] }
/-- After F1 `1A CF 00 00 00 01 02 D5`. -/
def foundF1 : State := { atScan .doneFound 6 1 1 0xD5 0xD5 8 with pbuf := [(0, 0x02)] }
/-- X7: `1A CF 00 00 00 00 44`. -/
def x7 : State := atScan .doneMismatch 6 0 0 0x43 0x44 7
/-- X14 after 65534 of its 65535 payload bytes: the last index of `PBUF` comes next. -/
def lastByte : State := atScan .payload 6 0xFFFF 0xFFFE 0x67 0 65540
/-- Frame F1 of 95_test_vectors.md 2.2. -/
def f1 : List Byte := [0x1A, 0xCF, 0x00, 0x00, 0x00, 0x01, 0x02, 0xD5]

/-- The response of a command word. -/
def rspTo (w : CmdWord) (s : State) : Option Response := (nextOf (acceptWord w s)).bind (fun t => t.rsp)

/-! ### Well-formedness: each check refuses an ill-formed term -/

theorem test_wellFormed_undefined_opcode : RawCommand.wellFormed ⟨0x05, 0x0000⟩ = false := by decide
theorem test_wellFormed_nop_imm : RawCommand.wellFormed ⟨0x00, 0x0001⟩ = false := by decide
theorem test_wellFormed_byte_imm_high : RawCommand.wellFormed ⟨0x01, 0x01FF⟩ = false := by decide
theorem test_wellFormed_accepts :
    RawCommand.wellFormed ⟨0x00, 0x0000⟩ = true ∧ RawCommand.wellFormed ⟨0x12, 0x00FF⟩ = true ∧
    RawCommand.wellFormed ⟨0x21, 0xFFFF⟩ = true := by decide

/-! ### Decoding: words written bit by bit from the `encoding` column of spec/opcode_table.json -/

theorem test_decode_nop : decode 0b000000000000000000000000 = .ok .nop := rfl
theorem test_decode_crcInit : decode 0b000000010000000011111111 = .ok (.crcInit 0xFF) := rfl
theorem test_decode_crcByte : decode 0b000000100000000000011010 = .ok (.crcByte 0x1A) := rfl
theorem test_decode_setSync : decode 0b000100000111111001111111 = .ok (.setSync 0x7E7F) := rfl
theorem test_decode_scanStart : decode 0b000100010000010010101111 = .ok (.scanStart 0x04AF) := rfl
theorem test_decode_scanByte : decode 0b000100100000000011010101 = .ok (.scanByte 0xD5) := rfl
theorem test_decode_payloadRead : decode 0b001000001000000000000001 = .ok (.payloadRead 0x8001) := rfl
theorem test_decode_regRead : decode 0b001000010000000000001011 = .ok (.regRead 0x000B) := rfl

/-- 95_test_vectors.md 2.5 W2, W4, W5, W7, W12: the illegal words, and why. -/
theorem test_decode_illegal :
    decode 0x000001 = .error (.immNotZero 0x0001) ∧ decode 0x0101FF = .error (.immHighNotZero 0x01FF) ∧
    decode 0x020100 = .error (.immHighNotZero 0x0100) ∧ decode 0x120100 = .error (.immHighNotZero 0x0100) ∧
    decode 0x03FFFF = .error (.undefinedOpcode 0x03) ∧ decode 0x0F0000 = .error (.undefinedOpcode 0x0F) ∧
    decode 0x130000 = .error (.undefinedOpcode 0x13) ∧ decode 0x1F0000 = .error (.undefinedOpcode 0x1F) ∧
    decode 0x220000 = .error (.undefinedOpcode 0x22) ∧ decode 0xFFFFFF = .error (.undefinedOpcode 0xFF) :=
  ⟨rfl, rfl, rfl, rfl, rfl, rfl, rfl, rfl, rfl, rfl⟩

/-- No two rows of the opcode table share a word: rows differ where both masks are set. -/
theorem test_opcodeTable_no_overlap :
    opcodeTable.Pairwise (fun r q => r.pattern &&& r.mask &&& q.mask ≠ q.pattern &&& r.mask &&& q.mask) := by decide

theorem test_decodeTableWord : decodeTableWord 24 0x12001A = some (.scanByte 0x1A) ∧ decodeTableWord 24 0x050000 = none :=
  ⟨rfl, rfl⟩

/-- What the host asks of one row: after reset, the step runs the word given to `withFetchWord`. -/
theorem test_withFetchWord_runs :
    (nextOf (step (State.reset.withFetchWord 24 0x12001A))).map (fun t => (t.st, t.hidx, t.pos)) =
      some (.sync1, 1, 1) := by decide

/-! ### Reset (95_test_vectors.md 2.6) -/

theorem test_reset_values :
    rspTo 0x210000 State.reset = some ⟨.ok, 0xFF⟩ ∧ rspTo 0x210001 State.reset = some ⟨.ok, 0⟩ ∧
    rspTo 0x210002 State.reset = some ⟨.ok, 0x1ACF⟩ ∧ rspTo 0x210007 State.reset = some ⟨.ok, 0xFF⟩ ∧
    rspTo 0x21000B State.reset = some ⟨.ok, 0⟩ ∧ rspTo 0x200000 State.reset = some ⟨.errRange, 0⟩ := by decide

/-! ### The checksum (95_test_vectors.md 2.1, 40_checksum.md R110) -/

theorem test_checksum_vectors :
    checksum 0xFF [] = 0xFF ∧ checksum 0xFF [0x00] = 0xF3 ∧ checksum 0x00 [0x80] = 0x89 ∧
    checksum 0xFF [0x1A, 0xCF] = 0x61 ∧ checksum 0xFF f1 = 0x00 := by decide +kernel

/-- V12, V13: the ASCII string `123456789`. -/
theorem test_checksum_check_value :
    checksum 0xFF [0x31, 0x32, 0x33, 0x34, 0x35, 0x36, 0x37, 0x38, 0x39] = 0xFB ∧
    checksum 0x00 [0x31, 0x32, 0x33, 0x34, 0x35, 0x36, 0x37, 0x38, 0x39] = 0xF4 := by decide +kernel

/-- W3. -/
theorem test_crcInit : (nextOf (exec (.crcInit 0x00) State.reset)).map (fun t => (t.crc, t.scrc)) = some (0x00, 0xFF) := by
  decide

/-- W6. -/
theorem test_crcByte : (nextOf (exec (.crcByte 0x1A) State.reset)).map (fun t => (t.crc, t.scrc)) = some (0xB5, 0xFF) := by
  decide +kernel

/-! ### The scanner (95_test_vectors.md 2.3) -/

/-- W8, and 2.7: the restart keeps `FBASE`. -/
theorem test_setSync :
    (nextOf (exec (.setSync 0x7E7F) { foundF1 with fbase := 0x04AF })).map
      (fun t => (markerFirst t, markerSecond t, t.fbase, statusWord t.st, t.pos)) =
      some (0x7E, 0x7F, 0x04AF, 0, 0) := by decide

/-- W10, and 2.7: the marker stays. -/
theorem test_scanStart :
    (nextOf (exec (.scanStart 0xFFFF) foundF1)).map (fun t => (t.sync, t.fbase, t.st, t.flen, t.scrc)) =
      some (0x1ACF, 0xFFFF, .hunt, 0, 0xFF) := by decide

/-- X2, X10, X11, X3: the search. -/
theorem test_scanByte_search :
    (nextOf (exec (.scanByte 0x1A) State.reset)).map (fun t => (t.st, t.hidx, t.pos)) = some (.sync1, 1, 1) ∧
    (nextOf (exec (.scanByte 0x00) x2)).map (fun t => (t.st, t.hidx, t.pos)) = some (.hunt, 0, 2) ∧
    (nextOf (exec (.scanByte 0x1A) x2)).map (fun t => (t.st, t.hidx, t.pos)) = some (.sync1, 1, 2) ∧
    (nextOf (exec (.scanByte 0xCF) x2)).map (fun t => (t.st, t.hidx, t.fstart, t.scrc)) = some (.hdr, 2, 0, 0x61) := by
  decide +kernel

/-- X17 to X15, X15 to X16, X16 to F1, and `D4` for `D5` (R137): the frame. -/
theorem test_scanByte_frame :
    (nextOf (exec (.scanByte 0x01) x17)).map (fun t => (t.st, t.flen, t.hidx, t.scrc)) = some (.payload, 1, 6, 0x44) ∧
    nextOf (exec (.scanByte 0x02) x15) = some { x16 with rsp := some ⟨.ok, 0⟩ } ∧
    nextOf (exec (.scanByte 0xD5) x16) = some { foundF1 with rsp := some ⟨.ok, 0⟩ } ∧
    (nextOf (exec (.scanByte 0xD4) x16)).map (fun t => (t.st, statusWord t.st)) = some (.doneMismatch, 0x136) := by
  decide +kernel

/-! ### Host access (95_test_vectors.md 2.5, P2) -/

theorem test_nop : nextOf (exec .nop foundF1) = some { foundF1 with rsp := some ⟨.ok, 0⟩ } := by decide

theorem test_payloadRead :
    rspTo 0x200000 foundF1 = some ⟨.ok, 2⟩ ∧ rspTo 0x200001 foundF1 = some ⟨.errRange, 0⟩ ∧
    rspTo 0x20FFFF foundF1 = some ⟨.errRange, 0⟩ ∧ rspTo 0x200000 x16 = some ⟨.errRange, 0⟩ := by decide

theorem test_regRead :
    rspTo 0x210001 foundF1 = some ⟨.ok, 0x1A5⟩ ∧ rspTo 0x210009 foundF1 = some ⟨.ok, 8⟩ ∧
    rspTo 0x21000C foundF1 = some ⟨.errIllegal, 0⟩ ∧ rspTo 0x21FFFF foundF1 = some ⟨.errIllegal, 0⟩ := by decide

/-- W18. -/
theorem test_ignored : rspTo 0x12001A foundF1 = some ⟨.ignored, 0⟩ := by decide

/-! ### The scan contract (95_test_vectors.md 2.3, 2.4) -/

theorem test_scan :
    scan f1 0x1A 0xCF 0x04AF = (.found 0x04AF [0x02], .found) ∧
    scan [0x00, 0x1A, 0xCF, 0x00, 0x00, 0x00] 0x1A 0xCF 0 = (.truncated, .frameTruncated) ∧
    scan [0x1A, 0xCF, 0x00, 0x00, 0x00, 0x00, 0x44] 0x1A 0xCF 0 = (.notFound, .checksumMismatch) ∧
    scan [0xCF, 0x1A] 0x1A 0xCF 0 = (.notFound, .frameNotFound) := by decide +kernel

/-- F3 and F7 of 2.2. -/
theorem test_buildFrame :
    buildFrame 0x1A 0xCF 0x00 0x00 [0xFF, 0xFE] = [0x1A, 0xCF, 0x00, 0x00, 0x00, 0x02, 0xFF, 0xFE, 0x91] ∧
    buildFrame 0x1A 0xCF 0x12 0x34 [0, 0, 0] = [0x1A, 0xCF, 0x12, 0x34, 0x00, 0x03, 0x00, 0x00, 0x00, 0x6A] := by
  decide +kernel

/-! ### Assembler lines (95_test_vectors.md 2.5, last lines; 30_encoding.md R79) -/

theorem test_assembleLine :
    assembleLine "SCAN_BYTE 0x1A" = some [0x12001A] ∧ assembleLine "REG_READ STATUS ; poll" = some [0x210001] ∧
    assembleLine "CRC_SEED" = some [0x0100FF] ∧ assembleLine "CRC_BYTES 0x31, 50" = some [0x020031, 0x020032] ∧
    assembleLine "SCAN_BYTE 256" = none ∧ assembleLine "NOP" = some [0x000000] := by decide +kernel

/-! ### `PBUF` -/

theorem test_memory_canonical :
    Memory.write (Memory.write [] 7 0x55) 3 0xAA = [(3, 0xAA), (7, 0x55)] ∧
    Memory.write [(3, 0xAA), (7, 0x55)] 3 0 = [(7, 0x55)] := by decide

/-- The one index that names no byte (20_memory.md R50); no reachable state asks for it (log 7). -/
theorem test_memWrite_no_such_byte : memWrite 65535 0 State.reset = .fault .noSuchByte := rfl

/-! ### The invariant holds in a state of each kind -/

theorem inv_reset : StateInv State.reset := by constructor <;> decide
theorem inv_x2 : StateInv x2 := by constructor <;> decide
theorem inv_x3 : StateInv x3 := by constructor <;> decide
theorem inv_x17 : StateInv x17 := by constructor <;> decide
theorem inv_x15 : StateInv x15 := by constructor <;> decide
theorem inv_x16 : StateInv x16 := by constructor <;> decide
theorem inv_foundF1 : StateInv foundF1 := by constructor <;> decide
theorem inv_x7 : StateInv x7 := by constructor <;> decide
theorem inv_lastByte : StateInv lastByte := by constructor <;> decide

/-- What the host still has to send is no part of the invariant. -/
theorem inv_input {s : State} (h : StateInv s) (q : List HostInput) : StateInv { s with input := q } :=
  ⟨h.1, h.2, h.3, h.4, h.5, h.6, h.7, h.8, h.9, h.10, h.11, h.12, h.13, h.14⟩

/-! ### A witness for the hypotheses of each statement that has some, named after it; a statement with several clauses has
one for each, at the ends of its ranges -/

theorem witness_ResetWinsOverAPresentedCommand :
    (resetWith [.reset (some 0x12001A), .command 0]).input = HostInput.reset (some 0x12001A) :: [.command 0] := rfl

theorem witness_ResetLeavesTheListedRegisterValues :
    (State.reset = State.reset ∨ False) ∧
    ∃ u c rest s, u.input = HostInput.reset c :: rest ∧ step u = .next s ∧ u.st = .doneFound :=
  ⟨.inl rfl, { foundF1 with input := [.reset none] }, none, [], _, rfl, rfl, rfl⟩

theorem witness_StepRunsTheDecodedCommand :
    (resetWith [.command 0x12001A]).input = HostInput.command 0x12001A :: [] ∧ decode 0x12001A = .ok (.scanByte 0x1A) :=
  ⟨rfl, rfl⟩

/-- The ends of R74's three ranges, each with an input that carries it. -/
theorem witness_UndefinedOpcodesAnswerErrIllegal :
    (∀ op ∈ [0x03, 0x0F, 0x13, 0x1F, 0x22, (0xFF : Byte)],
      (0x03 ≤ op.toNat ∧ op.toNat ≤ 0x0F) ∨ (0x13 ≤ op.toNat ∧ op.toNat ≤ 0x1F) ∨
        (0x22 ≤ op.toNat ∧ op.toNat ≤ 0xFF)) ∧
    ∀ op : Byte, (resetWith [.command (op ++ (0 : Half))]).input = HostInput.command (op ++ (0 : Half)) :: [] :=
  ⟨by decide, fun _ => rfl⟩

theorem witness_NoInputChangesNothing : State.reset.input = [] ∧ foundF1.input = [] := ⟨rfl, rfl⟩

theorem witness_DecodeAndEncodeAgree :
    (Instr.scanByte 0xFF).wellFormed = true ∧ Instr.nop.wellFormed = true ∧ decode 0x21FFFF = .ok (.regRead 0xFFFF) :=
  ⟨rfl, rfl, rfl⟩

theorem witness_DecoderMakesTheChecksInOrder :
    (decode 0x000000 = .ok .nop ∧ decode 0x0200FF = .ok (.crcByte 0xFF)) ∧
    ∀ r ∈ opcodeTable, r.covers r.pattern = true := ⟨⟨rfl, rfl⟩, by decide⟩

theorem witness_PayloadReadExposesOnlyAFoundFrame :
    (foundF1.st = .doneFound ∧ (0 : Half).toNat < foundF1.flen.toNat) ∧ foundF1.flen.toNat ≤ (1 : Half).toNat ∧
    x7.st ≠ .doneFound ∧ x16.st ≠ .doneFound ∧ (0xFFFF : Half) = 0xFFFF := by decide

theorem witness_RegReadAnswersEveryRegister : 0x000C ≤ (0x000C : Half).toNat ∧ 0x000C ≤ (0xFFFF : Half).toNat := by decide

/-- 30_encoding.md R78's example word. -/
theorem test_scanByte_word : decode 0x12001A = .ok (.scanByte 0x1A) := rfl

theorem witness_ValidatedFrameIsReadableUntilRestart :
    ∃ (s : State) (f : ValidatedFrame) (t : State) (w : CmdWord) (rest : List HostInput), validatedFrame s = some f ∧
      0 < f.payload.length ∧ s.input = .command w :: rest ∧ step s = .next t ∧
      (∀ h, decode w ≠ .ok (.scanStart h)) ∧ ∀ h, decode w ≠ .ok (.setSync h) :=
  ⟨{ foundF1 with input := [.command 0x12001A] }, ⟨0, [0x02]⟩, _, 0x12001A, [], by decide, by decide, rfl, rfl,
    fun _ e => (nomatch Except.ok.inj (test_scanByte_word.symm.trans e)),
    fun _ e => (nomatch Except.ok.inj (test_scanByte_word.symm.trans e))⟩

theorem witness_CrcByteFoldsOneByte :
    (0xFF : Byte) = State.reset.crc ∧
    ∃ s : State, s.input = commandInputs (.crcInit 0x12 :: [(0x12 : Byte)].map .crcByte) ++ [.command 0] :=
  ⟨rfl, resetWith _, rfl⟩

theorem witness_ChecksumLaws :
    crc8Step 0x12 0x12 = crc8Step 0x12 0x12 ∧ (0x00 : Byte) ≠ 0x01 ∧
    ∃ s : State, s.input = commandInputs (.crcInit 0xFF :: [(0x1A : Byte)].map .crcByte) ++ [] :=
  ⟨rfl, by decide, resetWith _, rfl⟩

theorem witness_SetSyncLoadsTheMarkerAndRestarts : ∃ t, exec (.setSync 0x7E7E) foundF1 = .next t := ⟨_, rfl⟩

theorem witness_ScanStartBeginsANewScan : ∃ t, exec (.scanStart 0x04AF) foundF1 = .next t := ⟨_, rfl⟩

theorem witness_ScanByteInHunt : State.reset.st = .hunt := rfl

theorem witness_ScanByteInSync1 : x2.st = .sync1 := rfl

theorem witness_ScanByteInHdr :
    (x3.st = .hdr ∧ x3.hidx = 2) ∧ ({ x3 with hidx := 3 } : State).hidx = 3 ∧ ({ x3 with hidx := 4 } : State).hidx = 4 ∧
    x17.st = .hdr ∧ x17.hidx = 5 := by decide

/-- Not the last byte, the last byte of a one-byte payload, and the last byte `PBUF` has. -/
theorem witness_ScanByteInPayload :
    (x15.st = .payload ∧ x15.pcnt.toNat < x15.flen.toNat ∧ x15.pbuf.wf = true ∧ x15.pcnt.toNat + 1 = x15.flen.toNat) ∧
    (lastByte.st = .payload ∧ lastByte.pcnt.toNat < lastByte.flen.toNat ∧ lastByte.pbuf.wf = true ∧
      lastByte.pcnt.toNat = 65534) ∧
    ({ x15 with flen := 2 } : State).pcnt.toNat + 1 < ({ x15 with flen := 2 } : State).flen.toNat := by decide

theorem witness_ScanByteInCheck : x16.st = .check := rfl

/-- Each way out of a final state, and a run that ends in one. -/
theorem witness_FinalStatesIgnoreBytes :
    (foundF1.st = .doneFound ∧ x7.st = .doneMismatch) ∧
    (∀ x ∈ [HostInput.reset none, .command 0x110000, .command 0x101ACF],
      (nextOf (step { foundF1 with input := [x] })).map (fun t => decide (t.st ≠ foundF1.st)) = some true) ∧
    (nextOf (runFor 8 (resetWith (byteInputs f1)))).map (fun t => t.st) = some .doneFound := by decide +kernel

theorem witness_ScanByteCompletesOnEveryByte :
    StateInv State.reset ∧ isFinal State.reset.st = false ∧ StateInv foundF1 ∧ isFinal foundF1.st = true :=
  ⟨inv_reset, rfl, inv_foundF1, rfl⟩

/-- The rows of R139's table, each with a state and a byte. -/
theorem witness_ScanByteFollowsTheTransitionTable :
    (StateInv State.reset ∧ StateInv x2 ∧ StateInv x3 ∧ StateInv x17 ∧ StateInv x15 ∧ StateInv lastByte ∧ StateInv x16 ∧
      StateInv foundF1 ∧ StateInv x7) ∧
    ((0x1A : Byte) = markerFirst State.reset ∧ (0x00 : Byte) ≠ markerFirst State.reset) ∧
    ((0xCF : Byte) = markerSecond x2 ∧ ((0x1A : Byte) ≠ markerSecond x2 ∧ (0x1A : Byte) = markerFirst x2) ∧
      (0x00 : Byte) ≠ markerSecond x2 ∧ (0x00 : Byte) ≠ markerFirst x2) ∧
    (x3.hidx.toNat ≤ 4 ∧ x17.hidx = 5 ∧ pairBytes (hiByte x17.flen) 0x00 = 0 ∧ pairBytes (hiByte x17.flen) 0x01 ≠ 0) ∧
    x15.pcnt.toNat + 1 = x15.flen.toNat ∧ x16.scrc = (0xD5 : Byte) ∧ x16.scrc ≠ (0xD4 : Byte) :=
  ⟨⟨inv_reset, inv_x2, inv_x3, inv_x17, inv_x15, inv_lastByte, inv_x16, inv_foundF1, inv_x7⟩, by decide, by decide,
    by decide, by decide⟩

/-- The row of R139 in which the payload goes on. -/
theorem witness_ScanByteFollowsTheTransitionTable_payload :
    StateInv { x15 with flen := 2 } ∧
    ({ x15 with flen := 2 } : State).pcnt.toNat + 1 < ({ x15 with flen := 2 } : State).flen.toNat :=
  ⟨by constructor <;> decide, by decide⟩

/-- Each clause: a command that changes the register. -/
theorem witness_OnlyTheListedCommandsWriteARegister :
    (nextOf (exec (.crcInit 0) foundF1)).map (fun t => decide (t.crc ≠ foundF1.crc)) = some true ∧
    (nextOf (exec (.setSync 0) foundF1)).map (fun t => decide (t.sync ≠ foundF1.sync)) = some true ∧
    (nextOf (exec (.scanStart 1) foundF1)).map (fun t => decide (t.fbase ≠ foundF1.fbase ∧ t.st ≠ foundF1.st)) = some true ∧
    (nextOf (exec (.scanByte 0x02) x15)).map (fun t => decide (t.pbuf.read 0 ≠ x15.pbuf.read 0)) = some true := by
  decide +kernel

theorem witness_ErrorResponsesChangeNoState :
    ∃ (w : CmdWord) (rest : List HostInput) (s t : State) (r : Response), s.input = .command w :: rest ∧ step s = .next t ∧
      t.rsp = some r ∧ (r.code = .errIllegal ∨ r.code = .errRange) :=
  ⟨0x050000, [], { foundF1 with input := [.command 0x050000] }, _, ⟨.errIllegal, 0⟩, rfl, rfl, rfl, .inl rfl⟩

theorem witness_ResponseCodesHaveExactlyTheListedCauses :
    rspTo 0x050000 foundF1 = some ⟨.errIllegal, 0⟩ ∧ rspTo 0x000001 foundF1 = some ⟨.errIllegal, 0⟩ ∧
    rspTo 0x0101FF foundF1 = some ⟨.errIllegal, 0⟩ ∧ rspTo 0x21000C foundF1 = some ⟨.errIllegal, 0⟩ ∧
    rspTo 0x200001 foundF1 = some ⟨.errRange, 0⟩ ∧ rspTo 0x12001A foundF1 = some ⟨.ignored, 0⟩ ∧
    rspTo 0x200000 foundF1 = some ⟨.ok, 2⟩ := by decide

theorem witness_IdempotentCommands :
    (∀ b, Instr.setSync 5 ≠ .crcByte b) ∧ (∀ b, Instr.setSync 5 ≠ .scanByte b) ∧
    (∃ t, exec (.setSync 5) foundF1 = .next t) ∧ ∃ t, exec (.regRead 5) foundF1 = .next t :=
  ⟨nofun, nofun, ⟨_, rfl⟩, _, rfl⟩

/-- A byte consumed, at the wrap of `POS` too, and a byte ignored. -/
theorem witness_PosCountsConsumedBytes :
    (∃ t, exec (.scanByte 0) { State.reset with pos := 0xFFFFFFFF } = .next t ∧ t.rsp = some ⟨.ok, 0⟩) ∧
    (∃ t, exec (.scanByte 0) foundF1 = .next t ∧ t.rsp ≠ some ⟨.ok, 0⟩) ∧
    (∃ t, exec (.scanStart 0) foundF1 = .next t) ∧ ∃ t, exec .nop foundF1 = .next t :=
  ⟨⟨_, rfl, rfl⟩, ⟨_, rfl, by decide⟩, ⟨_, rfl⟩, _, rfl⟩

theorem witness_TheTwoUnitsAreIndependent :
    ∃ (s s1 s2 t1 t2 : State), exec (.crcInit 5) s = .next s1 ∧ exec (.scanByte 0x1A) s1 = .next s2 ∧
      exec (.scanByte 0x1A) s = .next t1 ∧ exec (.crcInit 5) t1 = .next t2 ∧ s2.crc ≠ s.crc ∧ s2.st ≠ s.st :=
  ⟨State.reset, _, _, _, _, rfl, rfl, rfl, rfl, by decide, by decide⟩

theorem witness_StepReadsNoResponseAndNoLaterInput :
    ∃ (s t : State) (x : HostInput) (rest : List HostInput), s.input = x :: rest ∧ step s = .next t :=
  ⟨resetWith [.command 0x12001A, .reset none], _, _, _, rfl, rfl⟩

theorem witness_PositionsNeverAffectAVerdict :
    (∃ t, exec (.scanByte 0xD5) x16 = .next t) ∧ Instr.scanByte 0xD5 ≠ .regRead 0x0009 ∧
    Instr.scanByte 0xD5 ≠ .regRead 0x000A := ⟨⟨_, rfl⟩, by decide, by decide⟩

theorem witness_UnreadPbufBytesAreNeverObserved :
    ∃ (s s' t : State), StateInv s ∧ StateInv s' ∧ SameButUnreadPbuf s s' ∧ exec (.payloadRead 0) s = .next t ∧
      s.pbuf.read 7 ≠ s'.pbuf.read 7 :=
  ⟨foundF1, { foundF1 with pbuf := [(0, 0x02), (7, 0x99)] }, _, inv_foundF1, by constructor <;> decide,
    ⟨rfl, by decide⟩, rfl, by decide⟩

theorem witness_PbufContentsAtResetAreNeverObserved :
    Memory.wf [] = true ∧ Memory.wf [(0, 0xAB), (65534, 0xCD)] = true := by decide

theorem witness_RegReadShowsAllRegisters :
    ∀ h : Half, answer (.regRead h) foundF1 = answer (.regRead h) { foundF1 with pbuf := [(0, 0x99)] } := by
  intro h
  unfold answer
  rw [exec_regRead, exec_regRead]
  cases regOfNumber h with
  | none => rfl
  | some r => cases r <;> rfl

theorem witness_EveryStepKeepsTheInvariant :
    ∃ s t : State, StateInv s ∧ step s = .next t ∧ t.st ≠ s.st :=
  ⟨{ x16 with input := [.command 0x1200D5] }, _, inv_input inv_x16 _, rfl, by decide⟩

theorem witness_EveryWordCompletesWithOneResponse :
    StateInv { lastByte with input := [.command 0x12001A] } ∧
    ({ lastByte with input := [.command 0x12001A] } : State).input = HostInput.command 0x12001A :: [] :=
  ⟨inv_input inv_lastByte _, rfl⟩

/-- A frame of the shortest length, from its marker on; and a scan of it whole. -/
theorem witness_AFrameEndsAfterExactlyItsBytes :
    (∃ s : State, StateInv s ∧ s.st = .hdr ∧ s.hidx = 2 ∧ s.input = byteInputs [0, 0, 0, 0, 0x43] ++ []) ∧
    [0, 0, 0, 0, (0x43 : Byte)].length =
      4 + ((byteAt [0, 0, 0, 0, 0x43] 2).toNat * 256 + (byteAt [0, 0, 0, 0, 0x43] 3).toNat) + 1 ∧
    ∃ s : State, StateInv s ∧ s.input = .command (encode (.scanStart 0)) :: byteInputs f1 ++ [] ∧
      findMarker (markerFirst s) (markerSecond s) f1 = some 0 ∧ 0 + 2 ≤ 2 ∧ 2 ≤ f1.length ∧
      0 + 6 + lengthField f1 0 + 1 ≤ f1.length :=
  ⟨⟨{ x3 with input := byteInputs [0, 0, 0, 0, 0x43] ++ [] }, inv_input inv_x3 _, rfl, rfl, rfl⟩, by decide,
    { State.reset with input := .command (encode (.scanStart 0)) :: byteInputs f1 ++ [] }, inv_input inv_reset _, rfl,
    by decide, by decide, by decide, by decide⟩

theorem witness_EveryStepTracksTheBuffer :
    ∃ (s t : State) (buf : List Byte) (x : HostInput) (rest : List HostInput), StateInv s ∧ Tracks s buf ∧
      s.input = x :: rest ∧ step s = .next t ∧ t.st = .hdr := by
  refine ⟨{ x2 with input := [.command 0x1200CF] }, _, [0x1A], _, [], inv_input inv_x2 _, ?_, rfl, rfl, rfl⟩
  exact (tracks_sync1 rfl).2 ⟨⟨by decide, rfl, rfl, rfl, rfl, rfl, rfl, rfl⟩, rfl, by decide⟩

theorem witness_OnlyValidatedBytesAreExposed :
    (nextOf (runFor 8 (resetWith (byteInputs f1)))).bind (answer (.payloadRead 0)) = some ⟨.ok, 2⟩ := by decide +kernel

theorem witness_TheFirstMarkerIsTheLeastOffset :
    findMarker 0x1A 0xCF ([0x1A] ++ [0x1A, 0xCF]) = some [(0x1A : Byte)].length := by decide

theorem witness_ACompleteFrameIsFinal :
    findMarker 0x1A 0xCF f1 = some 0 ∧ 0 + 6 + lengthField f1 0 + 1 ≤ f1.length := by decide

theorem witness_BuiltFrameScansToItsPayload :
    ([] : List Byte).length ≤ 65535 ∧ (List.replicate 65535 (0 : Byte)).length ≤ 65535 :=
  ⟨Nat.zero_le _, by rw [List.length_replicate]⟩

theorem witness_FramesRoundTripThroughTheBlock :
    ∃ s : State, StateInv s ∧ [(0x02 : Byte)].length ≤ 65535 ∧
      s.input = .command (encode (.scanStart 0x04AF)) ::
        byteInputs (buildFrame (markerFirst s) (markerSecond s) 0 0 [0x02]) ++ [.command 0] :=
  ⟨{ x7 with input := .command (encode (.scanStart 0x04AF)) ::
      byteInputs (buildFrame 0x1A 0xCF 0 0 [0x02]) ++ [.command 0] }, inv_input inv_x7 _, by decide, rfl⟩

/-- The first and the last bit of a frame, and one of its length. -/
theorem witness_SingleBitFlipsAreNeverFoundIntact :
    [(0x02 : Byte)].length ≤ 65535 ∧ 0 < (buildFrame 0x1A 0xCF 0 0 [0x02]).length ∧
    7 < (buildFrame 0x1A 0xCF 0 0 [0x02]).length ∧ 5 < (buildFrame 0x1A 0xCF 0 0 [0x02]).length ∧ 0 < 8 ∧ 7 < 8 := by decide

/-- 95_test_vectors.md 2.4, rows 0, 4, 5 and 7: what such flips give. -/
theorem test_flips :
    scan (flipBit f1 0 0) 0x1A 0xCF 0 = (.notFound, .frameNotFound) ∧
    scan (flipBit f1 4 7) 0x1A 0xCF 0 = (.truncated, .frameTruncated) ∧
    scan (flipBit f1 5 0) 0x1A 0xCF 0 = (.notFound, .checksumMismatch) ∧
    scan (flipBit f1 7 7) 0x1A 0xCF 0 = (.notFound, .checksumMismatch) := by decide +kernel

/-- A flip in the marker after which another marker is found and gives a shorter frame. -/
theorem witness_SingleBitFlips_later_marker :
    findMarker 0x1A 0xCF (flipBit (buildFrame 0x1A 0xCF 0 0 [0x1A, 0xCF, 0, 0, 0, 0, 0x43]) 0 0) = some 6 ∧
    (scan (flipBit (buildFrame 0x1A 0xCF 0 0 [0x1A, 0xCF, 0, 0, 0, 0, 0x43]) 0 0) 0x1A 0xCF 0).1 = .found 0 [] := by
  decide +kernel

theorem witness_InstancesShareNothing :
    (∃ q, platformStep 1 [State.reset, foundF1] = .next q) ∧
    ([State.reset, foundF1] : Platform)[1]? = some foundF1 ∧ ∃ t, step foundF1 = .next t :=
  ⟨⟨_, rfl⟩, rfl, _, rfl⟩

/-- `0x0A`, `010` and `10` write ten; the first numbers outside the ranges of forms B and H. -/
theorem witness_numberText :
    NumberText "0x0A".toList 10 ∧ NumberText "010".toList 10 ∧ NumberText "10".toList 10 ∧
    NumberText "255".toList 255 ∧ NumberText "256".toList 256 ∧ NumberText "0x10000".toList 65536 :=
  ⟨⟨[0, 10], by decide, .inl ⟨rfl, rfl⟩⟩, ⟨[0, 1, 0], by decide, .inr ⟨by decide, rfl, rfl⟩⟩,
    ⟨[1, 0], by decide, .inr ⟨by decide, rfl, rfl⟩⟩, ⟨[2, 5, 5], by decide, .inr ⟨by decide, rfl, rfl⟩⟩,
    ⟨[2, 5, 6], by decide, .inr ⟨by decide, rfl, rfl⟩⟩, ⟨[1, 0, 0, 0, 0], by decide, .inl ⟨rfl, rfl⟩⟩⟩

theorem witness_lineEnd : LineEnd [] ∧ LineEnd " ; poll".toList :=
  ⟨⟨0, [], rfl, .inl rfl⟩, ⟨1, _, rfl, .inr ⟨_, rfl⟩⟩⟩

theorem witness_AssemblerLinesEncodeTheirCommands :
    (NumberText "256".toList 256 ∧ formOf (.scanByte 0) = .B ∧ 256 ≤ 256) ∧
    NumberText "0x10000".toList 65536 ∧ formOf (.setSync 0) = .H ∧ 65536 ≤ 65536 :=
  ⟨⟨witness_numberText.2.2.2.2.1, rfl, Nat.le_refl _⟩, witness_numberText.2.2.2.2.2, rfl, Nat.le_refl _⟩

/-- One line for each clause. -/
theorem witness_AssemblerTextGivesItsWords :
    (LineEnd " ; poll".toList ∧ formOf .nop = .N ∧
      "NOP ; poll".toList = (mnemonicOf .nop).toList ++ " ; poll".toList) ∧
    (NumberText "255".toList (immOf (.scanByte 0xFF)).toNat ∧ formOf (.scanByte 0xFF) = .B ∧
      "SCAN_BYTE 255".toList = (mnemonicOf (.scanByte 0xFF)).toList ++ ' ' :: "255".toList ++ []) ∧
    "REG_READ POS".toList = "REG_READ".toList ++ ' ' :: (regNameText .POS).toList ++ [] ∧
    "CRC_SEED".toList = "CRC_SEED".toList ++ [] ∧
    (List.Forall₂ (fun num (b : Byte) => NumberText num b.toNat) ["0x0A".toList, "10".toList] [10, 10] ∧
      "CRC_BYTES 0x0A, 10".toList =
        "CRC_BYTES".toList ++ ' ' :: [',', ' '].intercalate ["0x0A".toList, "10".toList] ++ []) :=
  ⟨⟨witness_lineEnd.2, rfl, rfl⟩, ⟨witness_numberText.2.2.2.1, rfl, rfl⟩, rfl, rfl,
    .cons witness_numberText.1 (.cons witness_numberText.2.2.1 .nil), rfl⟩

end Sys2Proof.Tests
end

section
/-! SUPPORT. Decoding takes back encoding (30_encoding.md R71, R75, R78), and a step on a presented word. -/

namespace Sys2Proof

theorem decode_fields (op : Byte) (imm : Half) : decode (op ++ imm) = decodeFields op imm := by
  simp only [decode, wordOp_fields, wordImm_fields]

/-- A zero-extended byte passes the check of form B. -/
theorem decodeB_zeroExtended (k : Byte → Instr) (b : Byte) : decodeB k (Machine.pairBytes 0 b) = .ok (k b) := by
  simp [decodeB, Machine.immLegal]

/-- No well-formedness is asked: an `Instr` cannot hold an operand its form has no room for. -/
theorem decode_encode (i : Instr) : decode (encode i) = .ok i := by
  rw [encode, decode_fields]
  cases i with
  | crcInit b => exact decodeB_zeroExtended .crcInit b
  | crcByte b => exact decodeB_zeroExtended .crcByte b
  | scanByte b => exact decodeB_zeroExtended .scanByte b
  | nop | setSync | scanStart | payloadRead | regRead => rfl

end Sys2Proof

namespace Sys2Proof.Machine

theorem step_command {s : State} {w : CmdWord} {rest : List HostInput} (h : s.input = .command w :: rest) :
    step s = acceptWord w { s with input := rest } := step_cons h

/-- A 24-bit table word is the command word itself. -/
theorem tableCommand_toNat (w : CmdWord) : tableCommand 24 w.toNat = .command w := by
  rw [tableCommand, Nat.mod_eq_of_lt w.isLt, BitVec.ofNat_toNat, BitVec.setWidth_eq]

theorem step_withFetchWord (s : State) (w : CmdWord) : step (s.withFetchWord 24 w.toNat) = acceptWord w s :=
  step_command (by rw [withFetchWord_input, tableCommand_toNat])

/-- Settles O4: both clauses are `acceptWord` of a word that decodes, the second by `decode_encode`. -/
theorem stepRunsTheDecodedCommand : Obligations.StepRunsTheDecodedCommand := by
  constructor
  · intro s w rest i hinput hdecode
    rw [step_command hinput, acceptWord_ok hdecode]
  · intro s i
    rw [step_withFetchWord, acceptWord_ok (decode_encode i)]

end Sys2Proof.Machine
end

section
/-! SUPPORT. What a command can do, said once: one case per branch of `SCAN_BYTE` (41_scanner.md R133 to R138), and one
per kind of command. Every rule about a step is read off these. -/

namespace Sys2Proof.Machine

/-- The branches of `SCAN_BYTE b` in state `s`, each with its condition and the state it leaves. -/
inductive ByteStep (b : Byte) (s : State) : State → Prop
  | huntFirst (hst : s.st = .hunt) (h0 : b = markerFirst s) :
      ByteStep b s (consumed { s with st := .sync1, hidx := 1 })
  | huntOther (hst : s.st = .hunt) (h0 : b ≠ markerFirst s) : ByteStep b s (consumed s)
  | sync1Second (hst : s.st = .sync1) (h1 : b = markerSecond s) :
      ByteStep b s (consumed { s with
        st := .hdr, hidx := 2, fstart := s.pos - 1,
        scrc := crc8Step (crc8Step Config.seed (markerFirst s)) (markerSecond s) })
  | sync1First (hst : s.st = .sync1) (h1 : b ≠ markerSecond s) (h0 : b = markerFirst s) : ByteStep b s (consumed s)
  | sync1Other (hst : s.st = .sync1) (h1 : b ≠ markerSecond s) (h0 : b ≠ markerFirst s) :
      ByteStep b s (consumed { s with st := .hunt, hidx := 0 })
  | hdrReservedHigh (hst : s.st = .hdr) (hi : s.hidx = 2) :
      ByteStep b s (consumed { s with
        frsv := pairBytes b (loByte s.frsv), scrc := crc8Step s.scrc b, hidx := s.hidx + 1 })
  | hdrReservedLow (hst : s.st = .hdr) (hi : s.hidx = 3) :
      ByteStep b s (consumed { s with
        frsv := pairBytes (hiByte s.frsv) b, scrc := crc8Step s.scrc b, hidx := s.hidx + 1 })
  | hdrLengthHigh (hst : s.st = .hdr) (hi : s.hidx = 4) :
      ByteStep b s (consumed { s with
        flen := pairBytes b (loByte s.flen), scrc := crc8Step s.scrc b, hidx := s.hidx + 1 })
  | hdrLengthZero (hst : s.st = .hdr) (hi : s.hidx = 5) (hl : pairBytes (hiByte s.flen) b = 0) :
      ByteStep b s (consumed { s with
        flen := pairBytes (hiByte s.flen) b, pcnt := 0, st := .check, scrc := crc8Step s.scrc b, hidx := s.hidx + 1 })
  | hdrLengthPositive (hst : s.st = .hdr) (hi : s.hidx = 5) (hl : pairBytes (hiByte s.flen) b ≠ 0) :
      ByteStep b s (consumed { s with
        flen := pairBytes (hiByte s.flen) b, pcnt := 0, st := .payload, scrc := crc8Step s.scrc b, hidx := s.hidx + 1 })
  /-- No state that meets the invariant takes this branch (log 6). -/
  | hdrOutside (hst : s.st = .hdr) (hi : s.hidx.toNat < 2 ∨ 5 < s.hidx.toNat) :
      ByteStep b s (consumed { s with scrc := crc8Step s.scrc b, hidx := s.hidx + 1 })
  | payloadLast (hst : s.st = .payload) (hp : byteExists s.pcnt.toNat = true) (hl : s.pcnt + 1 = s.flen) :
      ByteStep b s (consumed { s with
        scrc := crc8Step s.scrc b, st := .check, pcnt := s.pcnt + 1, pbuf := s.pbuf.write s.pcnt.toNat b })
  | payloadMore (hst : s.st = .payload) (hp : byteExists s.pcnt.toNat = true) (hl : s.pcnt + 1 ≠ s.flen) :
      ByteStep b s (consumed { s with
        scrc := crc8Step s.scrc b, pcnt := s.pcnt + 1, pbuf := s.pbuf.write s.pcnt.toNat b })
  | checkMatch (hst : s.st = .check) (hc : b = s.scrc) :
      ByteStep b s (consumed { s with rxcrc := b, st := .doneFound })
  | checkMismatch (hst : s.st = .check) (hc : b ≠ s.scrc) :
      ByteStep b s (consumed { s with rxcrc := b, st := .doneMismatch })
  | final (hst : isFinal s.st = true) : ByteStep b s (respond .ignored 0 s)

/-! ### Each transition takes one of its branches -/

variable {b : Byte} {s : State}

theorem byteStep_scanHunt (hst : s.st = .hunt) : ByteStep b s (scanHunt b s) := by
  unfold scanHunt
  split
  · next h0 => exact .huntFirst hst h0
  · next h0 => exact .huntOther hst h0

theorem byteStep_scanSync1 (hst : s.st = .sync1) : ByteStep b s (scanSync1 b s) := by
  unfold scanSync1
  split
  · next h1 => exact .sync1Second hst h1
  · next h1 =>
    split
    · next h0 => exact .sync1First hst h1 h0
    · next h0 => exact .sync1Other hst h1 h0

theorem byteStep_scanHdr (hst : s.st = .hdr) : ByteStep b s (scanHdr b s) := by
  unfold scanHdr headerField
  split
  · next hi => exact .hdrReservedHigh hst (BitVec.eq_of_toNat_eq hi)
  · next hi => exact .hdrReservedLow hst (BitVec.eq_of_toNat_eq hi)
  · next hi => exact .hdrLengthHigh hst (BitVec.eq_of_toNat_eq hi)
  · next hi =>
    split
    · next hl => exact .hdrLengthZero hst (BitVec.eq_of_toNat_eq hi) hl
    · next hl => exact .hdrLengthPositive hst (BitVec.eq_of_toNat_eq hi) hl
  · next h2 h3 h4 h5 => exact .hdrOutside hst (by rw [imp_false] at h2 h3 h4 h5; omega)

theorem byteStep_afterPayload (hst : s.st = .payload) (hp : byteExists s.pcnt.toNat = true) :
    ByteStep b s (afterPayload b s) := by
  unfold afterPayload
  split
  · next hl => exact .payloadLast hst hp hl
  · next hl => exact .payloadMore hst hp hl

theorem byteStep_scanCheck (hst : s.st = .check) : ByteStep b s (scanCheck b s) := by
  unfold scanCheck
  split
  · next hc => exact .checkMatch hst hc
  · next hc => exact .checkMismatch hst hc

/-- All a `SCAN_BYTE` that completes can do, one case per branch. -/
theorem ByteStep.of_exec {t : State} (h : exec (.scanByte b) s = .next t) : ByteStep b s t := by
  obtain ⟨hst, rfl⟩ | ⟨hst, rfl⟩ | ⟨hst, rfl⟩ | ⟨hst, hp, rfl⟩ | ⟨hst, rfl⟩ | ⟨hst, rfl⟩ := scanByte_cases h
  · exact byteStep_scanHunt hst
  · exact byteStep_scanSync1 hst
  · exact byteStep_scanHdr hst
  · exact byteStep_afterPayload hst hp
  · exact byteStep_scanCheck hst
  · exact .final hst

/-! The field a header byte goes to, by `HIDX` (R135). -/

theorem headerField_of_hidx_two (hi : s.hidx = 2) :
    headerField b s = { s with frsv := pairBytes b (loByte s.frsv) } := by
  unfold headerField; rw [hi]; rfl

theorem headerField_of_hidx_three (hi : s.hidx = 3) :
    headerField b s = { s with frsv := pairBytes (hiByte s.frsv) b } := by
  unfold headerField; rw [hi]; rfl

theorem headerField_of_hidx_four (hi : s.hidx = 4) :
    headerField b s = { s with flen := pairBytes b (loByte s.flen) } := by
  unfold headerField; rw [hi]; rfl

theorem headerField_of_hidx_five (hi : s.hidx = 5) :
    headerField b s = { s with
      flen := pairBytes (hiByte s.flen) b, pcnt := 0,
      st := if pairBytes (hiByte s.flen) b = 0 then .check else .payload } := by
  unfold headerField; rw [hi]; rfl

theorem headerField_outside (hi : s.hidx.toNat < 2 ∨ 5 < s.hidx.toNat) : headerField b s = s := by
  unfold headerField
  split
  · omega
  · omega
  · omega
  · omega
  · rfl

/-- Each branch is one that `SCAN_BYTE` takes. -/
theorem ByteStep.exec_eq {t : State} (h : ByteStep b s t) : exec (.scanByte b) s = .next t := by
  cases h with
  | huntFirst hst h0 => rw [exec_scanByte_hunt hst, scanHunt, if_pos h0]
  | huntOther hst h0 => rw [exec_scanByte_hunt hst, scanHunt, if_neg h0]
  | sync1Second hst h1 => rw [exec_scanByte_sync1 hst, scanSync1, if_pos h1]
  | sync1First hst h1 h0 => rw [exec_scanByte_sync1 hst, scanSync1, if_neg h1, if_pos h0]
  | sync1Other hst h1 h0 => rw [exec_scanByte_sync1 hst, scanSync1, if_neg h1, if_neg h0]
  | hdrReservedHigh hst hi => rw [exec_scanByte_hdr hst, scanHdr, headerField_of_hidx_two hi]
  | hdrReservedLow hst hi => rw [exec_scanByte_hdr hst, scanHdr, headerField_of_hidx_three hi]
  | hdrLengthHigh hst hi => rw [exec_scanByte_hdr hst, scanHdr, headerField_of_hidx_four hi]
  | hdrLengthZero hst hi hl => rw [exec_scanByte_hdr hst, scanHdr, headerField_of_hidx_five hi, if_pos hl]
  | hdrLengthPositive hst hi hl => rw [exec_scanByte_hdr hst, scanHdr, headerField_of_hidx_five hi, if_neg hl]
  | hdrOutside hst hi => rw [exec_scanByte_hdr hst, scanHdr, headerField_outside hi]
  | payloadLast hst hp hl => exact (exec_scanByte_payload_iff hst b).2 ⟨hp, by rw [afterPayload, if_pos hl]; rfl⟩
  | payloadMore hst hp hl => exact (exec_scanByte_payload_iff hst b).2 ⟨hp, by rw [afterPayload, if_neg hl]; rfl⟩
  | checkMatch hst hc => rw [exec_scanByte_check hst, scanCheck, if_pos hc]
  | checkMismatch hst hc => rw [exec_scanByte_check hst, scanCheck, if_neg hc]
  | final hst => exact exec_scanByte_final hst b

/-! ### A step that takes an input, and every command -/

/-- What a step that takes input `x` can do. -/
theorem step_cons_cases {s t : State} {x : HostInput} {rest : List HostInput} (hinput : s.input = x :: rest)
    (h : step s = .next t) :
    (∃ c, x = .reset c ∧ t = resetBlock { s with input := rest }) ∨
    (∃ w e, x = .command w ∧ decode w = .error e ∧ t = raiseError .errIllegal { s with input := rest }) ∨
    ∃ w i, x = .command w ∧ decode w = .ok i ∧ exec i { s with input := rest } = .next t := by
  obtain ⟨hnil, -⟩ | ⟨c, rest', hin, rfl⟩ | ⟨w, rest', e, hin, hd, rfl⟩ | ⟨w, rest', i, hin, hd, hx⟩ := step_cases h
  · cases hinput.symm.trans hnil
  all_goals obtain ⟨rfl, rfl⟩ := List.cons.inj (hinput.symm.trans hin)
  · exact .inl ⟨c, rfl, rfl⟩
  · exact .inr (.inl ⟨w, e, rfl, hd, rfl⟩)
  · exact .inr (.inr ⟨w, i, rfl, hd, hx⟩)

/-- The commands that write nothing (42_host_access.md R160 to R162). -/
def IsRead (i : Instr) : Prop := i = .nop ∨ (∃ h, i = .payloadRead h) ∨ ∃ h, i = .regRead h

/-- All a command can do: `SCAN_BYTE` takes a branch, the two restarts clear the scan, the checksum unit's commands write
`CRC`, and every other command only responds. -/
theorem exec_cases {i : Instr} {s t : State} (h : exec i s = .next t) :
    (∃ b, i = .scanByte b ∧ ByteStep b s t) ∨
    (∃ m, i = .setSync m ∧ t = respond .ok 0 (restartScan { s with sync := m })) ∨
    (∃ a, i = .scanStart a ∧ t = respond .ok 0 (restartScan { s with fbase := a })) ∨
    (∃ b c, (i = .crcInit b ∨ i = .crcByte b) ∧ t = respond .ok 0 { s with crc := c }) ∨
    (IsRead i ∧ ∃ c d, t = respond c d s) := by
  cases i with
  | scanByte b => exact .inl ⟨b, rfl, .of_exec h⟩
  | setSync m => cases h; exact .inr (.inl ⟨m, rfl, rfl⟩)
  | scanStart a => cases h; exact .inr (.inr (.inl ⟨a, rfl, rfl⟩))
  | crcInit b => cases h; exact .inr (.inr (.inr (.inl ⟨b, b, .inl rfl, rfl⟩)))
  | crcByte b => cases h; exact .inr (.inr (.inr (.inl ⟨b, crc8Step s.crc b, .inr rfl, rfl⟩)))
  | nop => cases h; exact .inr (.inr (.inr (.inr ⟨.inl rfl, .ok, 0, rfl⟩)))
  | payloadRead k =>
    refine .inr (.inr (.inr (.inr ⟨.inr (.inl ⟨k, rfl⟩), ?_⟩)))
    rw [exec_payloadRead] at h
    cases h
    split
    · exact ⟨_, _, rfl⟩
    · exact ⟨_, _, rfl⟩
  | regRead k =>
    refine .inr (.inr (.inr (.inr ⟨.inr (.inr ⟨k, rfl⟩), ?_⟩)))
    rw [exec_regRead] at h
    cases h
    split
    · exact ⟨_, _, rfl⟩
    · exact ⟨_, _, rfl⟩

end Sys2Proof.Machine
end

section
/-! SUPPORT. `StateInv` by scanner state (10_state.md R29, R31, R34, R37), what it does not look at,
and that every step keeps it. -/

namespace Sys2Proof.Machine

variable {s : State}

/-- The frame's registers before its marker has matched (R33, R37). -/
def FrameClear (s : State) : Prop :=
  s.frsv = 0 ∧ s.flen = 0 ∧ s.pcnt = 0 ∧ s.scrc = Config.seed ∧ s.rxcrc = 0 ∧ s.fstart = 0

/-- The registers while the header arrives: a byte still to come reads 0 (R29, R31; 42_host_access.md R162). -/
def HeaderPending (s : State) : Prop :=
  s.pcnt = 0 ∧ (s.hidx.toNat ≤ 4 → s.flen = 0) ∧ (s.hidx = 5 → loByte s.flen = 0) ∧
  (s.hidx = 2 → s.frsv = 0) ∧ (s.hidx = 3 → loByte s.frsv = 0)

theorem stateInv_hunt (h : s.st = .hunt) : StateInv s ↔ s.hidx = 0 ∧ FrameClear s ∧ s.pbuf.wf = true := by
  constructor
  · intro i
    exact ⟨i.hidx_hunt h, i.searching (.inl h), i.pbuf_wf⟩
  · rintro ⟨hidx, ⟨frsv, flen, pcnt, scrc, rxcrc, fstart⟩, wf⟩
    constructor <;> simp [*, isFinal]

theorem stateInv_sync1 (h : s.st = .sync1) : StateInv s ↔ s.hidx = 1 ∧ FrameClear s ∧ s.pbuf.wf = true := by
  constructor
  · intro i
    exact ⟨i.hidx_sync1 h, i.searching (.inr h), i.pbuf_wf⟩
  · rintro ⟨hidx, ⟨frsv, flen, pcnt, scrc, rxcrc, fstart⟩, wf⟩
    constructor <;> simp [*, isFinal]

theorem stateInv_hdr (h : s.st = .hdr) : StateInv s ↔
    2 ≤ s.hidx.toNat ∧ s.hidx.toNat ≤ 5 ∧ HeaderPending s ∧ s.rxcrc = 0 ∧ s.pbuf.wf = true := by
  constructor
  · intro i
    exact ⟨(i.hidx_hdr h).1, (i.hidx_hdr h).2, i.hdr_pending h, i.rxcrc_pending (by rw [h]; rfl), i.pbuf_wf⟩
  · rintro ⟨lo, hi, ⟨pcnt, flen, flenLow, frsv, frsvLow⟩, rxcrc, wf⟩
    have hidx_le : s.hidx.toNat ≤ 6 := by omega
    constructor <;> simp_all [isFinal]

theorem stateInv_payload (h : s.st = .payload) : StateInv s ↔
    s.hidx = 6 ∧ s.pcnt.toNat < s.flen.toNat ∧ s.rxcrc = 0 ∧ s.pbuf.wf = true := by
  constructor
  · intro i
    exact ⟨i.hidx_frame (.inl h), i.payload_open h, i.rxcrc_pending (by rw [h]; rfl), i.pbuf_wf⟩
  · rintro ⟨hidx, pcnt, rxcrc, wf⟩
    have pcnt_le := pcnt.le
    constructor <;> simp [*, isFinal]

theorem stateInv_check (h : s.st = .check) : StateInv s ↔
    s.hidx = 6 ∧ s.pcnt = s.flen ∧ s.rxcrc = 0 ∧ s.pbuf.wf = true := by
  constructor
  · intro i
    exact ⟨i.hidx_frame (.inr (.inl h)), i.complete (.inl h), i.rxcrc_pending (by rw [h]; rfl), i.pbuf_wf⟩
  · rintro ⟨hidx, pcnt, rxcrc, wf⟩
    constructor <;> simp [*, isFinal]

theorem stateInv_doneFound (h : s.st = .doneFound) : StateInv s ↔
    s.hidx = 6 ∧ s.pcnt = s.flen ∧ s.rxcrc = s.scrc ∧ s.pbuf.wf = true := by
  constructor
  · intro i
    have hf : isFinal s.st = true := by rw [h]; rfl
    exact ⟨i.hidx_frame (.inr (.inr hf)), i.complete (.inr hf), i.found h, i.pbuf_wf⟩
  · rintro ⟨hidx, pcnt, rxcrc, wf⟩
    constructor <;> simp [*, isFinal]

theorem stateInv_doneMismatch (h : s.st = .doneMismatch) : StateInv s ↔
    s.hidx = 6 ∧ s.pcnt = s.flen ∧ s.rxcrc ≠ s.scrc ∧ s.pbuf.wf = true := by
  constructor
  · intro i
    have hf : isFinal s.st = true := by rw [h]; rfl
    exact ⟨i.hidx_frame (.inr (.inr hf)), i.complete (.inr hf), i.mismatch h, i.pbuf_wf⟩
  · rintro ⟨hidx, pcnt, rxcrc, wf⟩
    constructor <;> simp [*, isFinal]

/-- The invariant does not look at `CRC`, the inputs to come or the response. -/
theorem StateInv.with_crc_input_rsp (h : StateInv s) (c : Byte) (q : List HostInput) (r : Option Response) :
    StateInv { s with crc := c, input := q, rsp := r } where
  __ := h

/-- A cleared scan meets the invariant, whatever stood in `PBUF`. -/
theorem stateInv_respond_restartScan (c : RspCode) (d : Word) (hwf : s.pbuf.wf = true) :
    StateInv (respond c d (restartScan s)) :=
  (stateInv_hunt rfl).2 ⟨rfl, ⟨rfl, rfl, rfl, rfl, rfl, rfl⟩, hwf⟩

/-- So does the reset state, whatever is to come. -/
theorem stateInv_resetWith (inputs : List HostInput) : StateInv (resetWith inputs) :=
  (stateInv_hunt rfl).2 ⟨rfl, ⟨rfl, rfl, rfl, rfl, rfl, rfl⟩, Memory.wf_reset⟩

/-! ### Every step keeps it -/

variable {b : Byte} {t : State}

@[simp] theorem loByte_zero : loByte 0#16 = 0#8 := rfl

/-- A header byte before the last keeps the scan in HDR, where no byte has arrived `FLEN` and `FRSV` being clear. -/
theorem stateInv_hdr_next {frsv flen : Half} {n : BitVec 3} (h : StateInv s) (hst : s.st = .hdr) (hi : s.hidx.toNat ≤ 4)
    (hn : n = s.hidx + 1) (hflen : n.toNat ≤ 4 → flen = 0) (hlow : n = 5 → loByte flen = 0)
    (hfrsv : n = 3 → loByte frsv = 0) (c : Byte) :
    StateInv (consumed { s with frsv := frsv, flen := flen, scrc := c, hidx := n }) := by
  obtain ⟨lo, -, ⟨pcnt, -⟩, rxcrc, wf⟩ := (stateInv_hdr hst).1 h
  have hn' : n.toNat = s.hidx.toNat + 1 := by bv_omega
  have h2 : n ≠ 2 := by bv_omega
  exact (stateInv_hdr (by exact hst)).2 ⟨show 2 ≤ n.toNat by omega, show n.toNat ≤ 5 by omega,
    ⟨pcnt, hflen, hlow, fun e => absurd e h2, hfrsv⟩, rxcrc, wf⟩

theorem ByteStep.stateInv (step : ByteStep b s t) (h : StateInv s) : StateInv t := by
  cases step with
  | huntFirst hst =>
    obtain ⟨-, clear, wf⟩ := (stateInv_hunt hst).1 h
    exact (stateInv_sync1 rfl).2 ⟨rfl, clear, wf⟩
  | huntOther hst =>
    obtain ⟨hidx, clear, wf⟩ := (stateInv_hunt hst).1 h
    exact (stateInv_hunt (by exact hst)).2 ⟨hidx, clear, wf⟩
  | sync1Second hst =>
    obtain ⟨-, ⟨frsv, flen, pcnt, -, rxcrc, -⟩, wf⟩ := (stateInv_sync1 hst).1 h
    exact (stateInv_hdr rfl).2 ⟨show 2 ≤ 2 by decide, show 2 ≤ 5 by decide,
      ⟨pcnt, fun _ => flen, nofun, fun _ => frsv, nofun⟩, rxcrc, wf⟩
  | sync1First hst =>
    obtain ⟨hidx, clear, wf⟩ := (stateInv_sync1 hst).1 h
    exact (stateInv_sync1 (by exact hst)).2 ⟨hidx, clear, wf⟩
  | sync1Other hst =>
    obtain ⟨-, clear, wf⟩ := (stateInv_sync1 hst).1 h
    exact (stateInv_hunt rfl).2 ⟨rfl, clear, wf⟩
  | hdrReservedHigh hst hi =>
    obtain ⟨-, -, ⟨-, flen, -, frsv, -⟩, -⟩ := (stateInv_hdr hst).1 h
    exact stateInv_hdr_next h hst (by simp [hi]) rfl (fun _ => flen (by simp [hi])) (by simp [hi])
      (fun _ => by simp [frsv hi]) _
  | hdrReservedLow hst hi =>
    obtain ⟨-, -, ⟨-, flen, -⟩, -⟩ := (stateInv_hdr hst).1 h
    exact stateInv_hdr_next h hst (by simp [hi]) rfl (fun _ => flen (by simp [hi])) (by simp [hi]) (by simp [hi]) _
  | hdrLengthHigh hst hi =>
    obtain ⟨-, -, ⟨-, flen, -⟩, -⟩ := (stateInv_hdr hst).1 h
    exact stateInv_hdr_next h hst (by simp [hi]) rfl (by simp [hi]) (fun _ => by simp [flen, hi]) (by simp [hi]) _
  | hdrLengthZero hst hi hl =>
    obtain ⟨-, -, -, rxcrc, wf⟩ := (stateInv_hdr hst).1 h
    exact (stateInv_check rfl).2 ⟨by simp [hi], hl.symm, rxcrc, wf⟩
  | hdrLengthPositive hst hi hl =>
    obtain ⟨-, -, -, rxcrc, wf⟩ := (stateInv_hdr hst).1 h
    exact (stateInv_payload rfl).2 ⟨by simp [hi], Nat.pos_of_ne_zero fun e => hl (BitVec.eq_of_toNat_eq e), rxcrc, wf⟩
  | hdrOutside hst hi =>
    obtain ⟨lo, hi5, -⟩ := (stateInv_hdr hst).1 h
    omega
  | payloadLast hst hp hl =>
    obtain ⟨hidx, -, rxcrc, wf⟩ := (stateInv_payload hst).1 h
    exact (stateInv_check rfl).2 ⟨hidx, hl, rxcrc, Memory.write_wf wf hp⟩
  | payloadMore hst hp hl =>
    obtain ⟨hidx, pcnt, rxcrc, wf⟩ := (stateInv_payload hst).1 h
    refine (stateInv_payload (by exact hst)).2 ⟨hidx, ?_, rxcrc, Memory.write_wf wf hp⟩
    show (s.pcnt + 1).toNat < s.flen.toNat
    bv_omega
  | checkMatch hst hc =>
    obtain ⟨hidx, pcnt, -, wf⟩ := (stateInv_check hst).1 h
    exact (stateInv_doneFound rfl).2 ⟨hidx, pcnt, hc, wf⟩
  | checkMismatch hst hc =>
    obtain ⟨hidx, pcnt, -, wf⟩ := (stateInv_check hst).1 h
    exact (stateInv_doneMismatch rfl).2 ⟨hidx, pcnt, hc, wf⟩
  | final => exact h.with_crc_input_rsp _ _ _

/-- Every command keeps the invariant. -/
theorem exec_stateInv {i : Instr} (h : StateInv s) (hx : exec i s = .next t) : StateInv t := by
  obtain ⟨b, -, step⟩ | ⟨m, -, rfl⟩ | ⟨a, -, rfl⟩ | ⟨b, c, -, rfl⟩ | ⟨-, c, d, rfl⟩ := exec_cases hx
  · exact step.stateInv h
  · exact stateInv_respond_restartScan _ _ h.pbuf_wf
  · exact stateInv_respond_restartScan _ _ h.pbuf_wf
  · exact h.with_crc_input_rsp _ _ _
  · exact h.with_crc_input_rsp _ _ _

/-- Settles O41: a command keeps the invariant by `exec_stateInv`, a reset restores it, and every other step leaves the
scanner alone. -/
theorem everyStepKeepsTheInvariant : Obligations.EveryStepKeepsTheInvariant := by
  intro s t h hs
  obtain ⟨-, rfl⟩ | ⟨c, rest, -, rfl⟩ | ⟨w, rest, e, -, -, rfl⟩ | ⟨w, rest, i, -, -, hx⟩ := step_cases hs
  · exact h.with_crc_input_rsp _ _ _
  · exact stateInv_resetWith rest
  · exact h.with_crc_input_rsp _ _ _
  · exact exec_stateInv (h.with_crc_input_rsp _ _ _) hx

/-- Settles O3. -/
theorem invariantHoldsAtReset : Obligations.InvariantHoldsAtReset :=
  ⟨stateInv_resetWith [], stateInv_resetWith⟩

end Sys2Proof.Machine
end

section
/-! SUPPORT. What one more byte does to the first marker of a buffer, to a checksum and to a position (41_scanner.md R120, R123;
40_checksum.md R101). -/

namespace Sys2Proof.Machine

variable {m0 m1 : Byte} {buf : List Byte}

theorem findMarker_cons (m0 m1 a : Byte) (rest : List Byte) : findMarker m0 m1 (a :: rest) =
    if a = m0 ∧ rest.head? = some m1 then some 0 else (findMarker m0 m1 rest).map (· + 1) := rfl

/-- The first marker of a buffer is the first marker of every longer one. -/
theorem findMarker_append_of_some {n : Nat} (h : findMarker m0 m1 buf = some n) (more : List Byte) :
    findMarker m0 m1 (buf ++ more) = some n := by
  induction buf generalizing n with
  | nil => cases h
  | cons a rest ih =>
    have hne : rest ≠ [] := by rintro rfl; simp [findMarker] at h
    rw [findMarker_cons] at h
    rw [List.cons_append, findMarker_cons, List.head?_append_of_ne_nil _ hne]
    split at h
    · next hm => rw [if_pos hm, h]
    · next hm =>
      obtain ⟨k, hk, rfl⟩ := Option.map_eq_some_iff.1 h
      rw [if_neg hm, ih hk, Option.map_some]

/-- A byte after a buffer without a marker completes one exactly when it is `m1` after `m0`. -/
theorem findMarker_concat (h : findMarker m0 m1 buf = none) (b : Byte) : findMarker m0 m1 (buf ++ [b]) =
    if buf.getLast? = some m0 ∧ b = m1 then some (buf.length - 1) else none := by
  induction buf with
  | nil => simp [findMarker]
  | cons a rest ih =>
    rw [findMarker_cons] at h
    split at h
    · cases h
    · next hm =>
      cases rest with
      | nil => simp [findMarker]
      | cons c rest =>
        rw [List.cons_append, findMarker_cons, List.cons_append, List.head?_cons, ← List.cons_append,
          ih (Option.map_eq_none_iff.1 h), if_neg (by simpa using hm)]
        rw [List.getLast?_cons_cons]
        split
        · simp
        · rfl

theorem checksum_concat (seed : Byte) (data : List Byte) (b : Byte) :
    checksum seed (data ++ [b]) = crc8Step (checksum seed data) b := by
  induction data generalizing seed with
  | nil => rfl
  | cons a rest ih => exact ih _

theorem getLast?_concat_ne {a b : Byte} (h : b ≠ a) : (buf ++ [b]).getLast? ≠ some a := by
  rw [List.getLast?_concat]
  exact fun e => h (Option.some.inj e)

/-- A position that counts a buffer's bytes counts one more (10_state.md R32). -/
theorem pos_concat {p : Word} (h : p = BitVec.ofNat 32 buf.length) (b : Byte) :
    p + 1 = BitVec.ofNat 32 (buf ++ [b]).length := by
  rw [List.length_append, BitVec.ofNat_add, h]
  rfl

end Sys2Proof.Machine
end

section
/-! SUPPORT. `Searching`, `FrameSoFar` and `Tracks` (10_state.md R27 to R34, R37; 41_scanner.md R121): what they do
not look at, and that every step keeps `Tracks`. -/

namespace Sys2Proof.Machine

variable {b : Byte} {s t : State} {buf pre hdr pay : List Byte}

/-! ### What they do not look at -/

theorem searching_with_place (c : Byte) (n : BitVec 3) (st' : ScanState) (q : List HostInput) (r : Option Response) :
    Searching { s with crc := c, hidx := n, st := st', input := q, rsp := r } buf ↔ Searching s buf :=
  ⟨fun h => { __ := h }, fun h => { __ := h }⟩

theorem frameSoFar_with_outcome (c x : Byte) (p : Word) (st' : ScanState) (q : List HostInput) (r : Option Response) :
    FrameSoFar { s with crc := c, rxcrc := x, pos := p, st := st', input := q, rsp := r } pre hdr pay ↔
      FrameSoFar s pre hdr pay :=
  ⟨fun h => { __ := h }, fun h => { __ := h }⟩

theorem Tracks.with_crc_input_rsp (h : Tracks s buf) (c : Byte) (q : List HostInput) (r : Option Response) :
    Tracks { s with crc := c, input := q, rsp := r } buf := by
  unfold Tracks at h ⊢
  cases e : s.st <;> simpa only [e, searching_with_place, frameSoFar_with_outcome, markerFirst] using h

/-! ### One more byte -/

/-- Still no marker. -/
theorem Searching.concat (h : Searching s buf) (hb : buf.getLast? ≠ some (markerFirst s) ∨ b ≠ markerSecond s)
    (st' : ScanState) (n : BitVec 3) : Searching (consumed { s with st := st', hidx := n }) (buf ++ [b]) where
  __ := h
  no_marker := by
    show findMarker (markerFirst s) (markerSecond s) _ = none
    rw [findMarker_concat h.no_marker, if_neg (by tauto)]
  pos := pos_concat h.pos b

theorem pairBytes_zero : pairBytes 0 0 = 0 := rfl

/-- The marker's second byte after its first: the frame begins with both. -/
theorem Searching.frame (h : Searching s (pre ++ [markerFirst s])) :
    FrameSoFar (consumed { s with
      st := .hdr, hidx := 2, fstart := s.pos - 1,
      scrc := crc8Step (crc8Step Config.seed (markerFirst s)) (markerSecond s) })
      pre [markerFirst s, markerSecond s] [] where
  first_marker := by
    show findMarker (markerFirst s) (markerSecond s) _ = _
    rw [List.append_cons, findMarker_concat h.no_marker, if_pos ⟨List.getLast?_concat, rfl⟩]
    simp
  hidx := rfl
  scrc := rfl
  fstart := by
    show s.pos - 1 = _
    rw [h.pos, List.length_append, BitVec.ofNat_add]
    exact BitVec.add_sub_cancel _ _
  frsv := h.frsv.trans pairBytes_zero.symm
  flen := h.flen.trans pairBytes_zero.symm
  pcnt := congrArg BitVec.toNat h.pcnt
  pbuf := nofun

/-- `FRSV` and `FLEN` of a header, a byte still to come reading 0 (R27, R28). -/
def HeaderFields (frsv flen : Half) (hdr : List Byte) : Prop :=
  frsv = pairBytes (hdr.getD 2 0) (hdr.getD 3 0) ∧ flen = pairBytes (hdr.getD 4 0) (hdr.getD 5 0)

/-- A header byte. -/
theorem FrameSoFar.concat_header {frsv flen pcnt : Half} (h : FrameSoFar s pre hdr []) (hlen : hdr.length ≤ 5)
    (hfields : HeaderFields frsv flen (hdr ++ [b])) (hpcnt : pcnt.toNat = 0) (st' : ScanState) :
    FrameSoFar (consumed { s with
      frsv := frsv, flen := flen, pcnt := pcnt, st := st', scrc := crc8Step s.scrc b, hidx := s.hidx + 1 })
      pre (hdr ++ [b]) [] where
  first_marker := by
    rw [← List.append_assoc]
    exact findMarker_append_of_some h.first_marker [b]
  hidx := by
    have := h.hidx
    show (s.hidx + 1).toNat = _
    rw [List.length_append, List.length_singleton]
    bv_omega
  scrc := by
    show crc8Step s.scrc b = _
    rw [h.scrc, List.append_nil, List.append_nil, checksum_concat]
  fstart := h.fstart
  frsv := hfields.1
  flen := hfields.2
  pcnt := hpcnt
  pbuf := nofun

/-- A payload byte. -/
theorem FrameSoFar.concat_payload (h : FrameSoFar s pre hdr pay) (hp : byteExists s.pcnt.toNat = true)
    (hwf : s.pbuf.wf = true) (st' : ScanState) :
    FrameSoFar (consumed { s with
      scrc := crc8Step s.scrc b, st := st', pcnt := s.pcnt + 1, pbuf := s.pbuf.write s.pcnt.toNat b })
      pre hdr (pay ++ [b]) where
  first_marker := h.first_marker
  hidx := h.hidx
  scrc := by
    show crc8Step s.scrc b = _
    rw [h.scrc, ← List.append_assoc, checksum_concat]
  fstart := h.fstart
  frsv := h.frsv
  flen := h.flen
  pcnt := by
    have hlt : s.pcnt.toNat < 65535 := of_decide_eq_true hp
    have := h.pcnt
    show (s.pcnt + 1).toNat = _
    rw [List.length_append, List.length_singleton]
    bv_omega
  pbuf := by
    intro i hi
    show (s.pbuf.write s.pcnt.toNat b).read i = _
    rw [List.length_append, List.length_singleton] at hi
    obtain rfl | hlt : i = pay.length ∨ i < pay.length := by omega
    · rw [h.pcnt, Memory.read_write_same _ _ hwf]
      exact (byteAt_append_right pay [b] 0).symm
    · rw [h.pcnt, Memory.read_write_other _ hlt.ne, byteAt_append_left hlt, h.pbuf i hlt]

/-- The checksum byte: the frame stands, and `POS` is just past it. -/
theorem FrameSoFar.checksum_byte (h : FrameSoFar s pre hdr pay) (hlen : hdr.length = 6)
    (pos : s.pos = BitVec.ofNat 32 (pre ++ hdr ++ pay).length) (st' : ScanState) :
    FrameSoFar (consumed { s with rxcrc := b, st := st' }) pre hdr pay ∧
      s.pos + 1 = BitVec.ofNat 32 (pre.length + 6 + pay.length + 1) := by
  refine ⟨(frameSoFar_with_outcome (s := s) _ _ _ _ _ _).2 h, ?_⟩
  rw [pos_concat pos b, List.length_append, List.length_append, List.length_append, hlen]
  rfl

/-- A header byte before the last. -/
theorem tracks_hdr_next {frsv flen : Half} (hst : s.st = .hdr) (h : Tracks s buf) (hi : s.hidx.toNat ≤ 4)
    (hfields : ∀ pre hdr, FrameSoFar s pre hdr [] → HeaderFields frsv flen (hdr ++ [b])) :
    Tracks (consumed { s with frsv := frsv, flen := flen, scrc := crc8Step s.scrc b, hidx := s.hidx + 1 })
      (buf ++ [b]) := by
  obtain ⟨pre, hdr, rfl, frame, lo, hi5, rxcrc, pos⟩ := (tracks_hdr hst).1 h
  have hlen := frame.hidx
  refine (tracks_hdr (by exact hst)).2 ⟨pre, hdr ++ [b], List.append_assoc .., ?_, ?_, ?_, rxcrc, pos_concat pos b⟩
  · exact frame.concat_header hi5 (hfields pre hdr frame) frame.pcnt _
  · rw [List.length_append]
    omega
  · rw [List.length_append, List.length_singleton]
    omega

/-- The last header byte, after which the frame stands with an empty payload. -/
theorem FrameSoFar.concat_header_last (h : FrameSoFar s pre hdr []) (hi : s.hidx = 5) (st' : ScanState) :
    FrameSoFar (consumed { s with
      flen := pairBytes (hiByte s.flen) b, pcnt := 0, st := st', scrc := crc8Step s.scrc b, hidx := s.hidx + 1 })
      pre (hdr ++ [b]) [] := by
  have hlen : hdr.length = 5 := by rw [← h.hidx, hi]; rfl
  exact h.concat_header hlen.le (by simp [HeaderFields, hlen, h.frsv, h.flen]) rfl _

theorem ByteStep.tracks (step : ByteStep b s t) (hinv : StateInv s) (h : Tracks s buf) : Tracks t (buf ++ [b]) := by
  cases step with
  | huntFirst hst h0 =>
    obtain ⟨search, -, last⟩ := (tracks_hunt hst).1 h
    exact (tracks_sync1 rfl).2 ⟨search.concat (.inl last) _ _, rfl, by rw [List.getLast?_concat, h0]; rfl⟩
  | huntOther hst h0 =>
    obtain ⟨search, hidx, last⟩ := (tracks_hunt hst).1 h
    exact (tracks_hunt (by exact hst)).2 ⟨search.concat (.inl last) _ _, hidx, getLast?_concat_ne h0⟩
  | sync1Second hst h1 =>
    obtain ⟨search, -, last⟩ := (tracks_sync1 hst).1 h
    obtain ⟨pre, rfl⟩ := List.getLast?_eq_some_iff.1 last
    subst h1
    exact (tracks_hdr rfl).2 ⟨pre, [markerFirst s, markerSecond s], List.append_assoc .., search.frame,
      show 2 ≤ 2 by decide, show 2 ≤ 5 by decide, search.rxcrc, pos_concat search.pos _⟩
  | sync1First hst h1 h0 =>
    obtain ⟨search, hidx, -⟩ := (tracks_sync1 hst).1 h
    exact (tracks_sync1 (by exact hst)).2 ⟨search.concat (.inr h1) _ _, hidx, by rw [List.getLast?_concat, h0]; rfl⟩
  | sync1Other hst h1 h0 =>
    obtain ⟨search, -⟩ := (tracks_sync1 hst).1 h
    exact (tracks_hunt rfl).2 ⟨search.concat (.inr h1) _ _, rfl, getLast?_concat_ne h0⟩
  | hdrReservedHigh hst hi =>
    refine tracks_hdr_next hst h (by simp [hi]) fun pre hdr frame => ?_
    have hlen : hdr.length = 2 := by rw [← frame.hidx, hi]; rfl
    simp [HeaderFields, hlen, frame.frsv, frame.flen]
  | hdrReservedLow hst hi =>
    refine tracks_hdr_next hst h (by simp [hi]) fun pre hdr frame => ?_
    have hlen : hdr.length = 3 := by rw [← frame.hidx, hi]; rfl
    simp [HeaderFields, hlen, frame.frsv, frame.flen]
  | hdrLengthHigh hst hi =>
    refine tracks_hdr_next hst h (by simp [hi]) fun pre hdr frame => ?_
    have hlen : hdr.length = 4 := by rw [← frame.hidx, hi]; rfl
    simp [HeaderFields, hlen, frame.frsv, frame.flen]
  | hdrLengthZero hst hi hl =>
    obtain ⟨pre, hdr, rfl, frame, -, -, rxcrc, pos⟩ := (tracks_hdr hst).1 h
    have hlen : hdr.length = 5 := by rw [← frame.hidx, hi]; rfl
    exact (tracks_check rfl).2 ⟨pre, hdr ++ [b], [], by simp, frame.concat_header_last hi _, by simp [hlen],
      by rw [consumed_flen, hl]; rfl, rxcrc, pos_concat pos b⟩
  | hdrLengthPositive hst hi hl =>
    obtain ⟨pre, hdr, rfl, frame, -, -, rxcrc, pos⟩ := (tracks_hdr hst).1 h
    have hlen : hdr.length = 5 := by rw [← frame.hidx, hi]; rfl
    exact (tracks_payload rfl).2 ⟨pre, hdr ++ [b], [], by simp, frame.concat_header_last hi _, by simp [hlen],
      Nat.pos_of_ne_zero fun e => hl (BitVec.eq_of_toNat_eq e), rxcrc, pos_concat pos b⟩
  | hdrOutside hst hi =>
    obtain ⟨lo, hi5⟩ := hinv.hidx_hdr hst
    omega
  | payloadLast hst hp hl =>
    obtain ⟨pre, hdr, pay, rfl, frame, hlen, hlt, rxcrc, pos⟩ := (tracks_payload hst).1 h
    have next := frame.concat_payload (b := b) hp hinv.pbuf_wf .check
    exact (tracks_check rfl).2 ⟨pre, hdr, pay ++ [b], List.append_assoc .., next, hlen,
      next.pcnt.symm.trans (congrArg BitVec.toNat hl), rxcrc, pos_concat pos b⟩
  | payloadMore hst hp hl =>
    obtain ⟨pre, hdr, pay, rfl, frame, hlen, hlt, rxcrc, pos⟩ := (tracks_payload hst).1 h
    have next := frame.concat_payload (b := b) hp hinv.pbuf_wf s.st
    refine (tracks_payload (by exact hst)).2 ⟨pre, hdr, pay ++ [b], List.append_assoc .., next, hlen, ?_, rxcrc,
      pos_concat pos b⟩
    have := frame.pcnt
    rw [← next.pcnt]
    show (s.pcnt + 1).toNat < s.flen.toNat
    bv_omega
  | checkMatch hst hc =>
    obtain ⟨pre, hdr, pay, rfl, frame, hlen, hpay, -, pos⟩ := (tracks_check hst).1 h
    obtain ⟨next, hpos⟩ := frame.checksum_byte (b := b) hlen pos .doneFound
    exact (tracks_doneFound rfl).2 ⟨pre, hdr, pay, [], rfl, next, hlen, hpay, hc, hpos⟩
  | checkMismatch hst hc =>
    obtain ⟨pre, hdr, pay, rfl, frame, hlen, hpay, -, pos⟩ := (tracks_check hst).1 h
    obtain ⟨next, hpos⟩ := frame.checksum_byte (b := b) hlen pos .doneMismatch
    exact (tracks_doneMismatch rfl).2 ⟨pre, hdr, pay, [], rfl, next, hlen, hpay, hc, hpos⟩
  | final hst =>
    refine Tracks.with_crc_input_rsp ?_ _ _ _
    cases e : s.st with
    | doneFound =>
      obtain ⟨pre, hdr, pay, more, rfl, held⟩ := (tracks_doneFound e).1 h
      exact (tracks_doneFound e).2 ⟨pre, hdr, pay, more ++ [b], List.append_assoc .., held⟩
    | doneMismatch =>
      obtain ⟨pre, hdr, pay, more, rfl, held⟩ := (tracks_doneMismatch e).1 h
      exact (tracks_doneMismatch e).2 ⟨pre, hdr, pay, more ++ [b], List.append_assoc .., held⟩
    | hunt | sync1 | hdr | payload | check => rw [e] at hst; cases hst

/-! ### Every step -/

theorem tracks_respond_restartScan (c : RspCode) (d : Word) : Tracks (respond c d (restartScan s)) [] :=
  (tracks_hunt rfl).2 ⟨⟨rfl, rfl, rfl, rfl, rfl, rfl, rfl, rfl⟩, rfl, nofun⟩

theorem tracks_resetWith (inputs : List HostInput) : Tracks (resetWith inputs) [] :=
  (tracks_hunt rfl).2 ⟨⟨rfl, rfl, rfl, rfl, rfl, rfl, rfl, rfl⟩, rfl, nofun⟩

section Buffer

variable {w : CmdWord} {i : Instr} {e : IllegalWord}

theorem bufferAfter_scanByte (hd : decode w = .ok (.scanByte b)) : bufferAfter buf (.command w) = buf ++ [b] := by
  simp only [bufferAfter, hd]

theorem bufferAfter_restart (hd : decode w = .ok i) (hi : (∃ m, i = .setSync m) ∨ ∃ a, i = .scanStart a) :
    bufferAfter buf (.command w) = [] := by
  obtain ⟨m, rfl⟩ | ⟨a, rfl⟩ := hi <;> simp only [bufferAfter, hd]

theorem bufferAfter_other (hd : decode w = .ok i) (hi : (∃ c, i = .crcInit c ∨ i = .crcByte c) ∨ IsRead i) :
    bufferAfter buf (.command w) = buf := by
  obtain ⟨c, rfl | rfl⟩ | rfl | ⟨k, rfl⟩ | ⟨k, rfl⟩ := hi <;> simp only [bufferAfter, hd]

theorem bufferAfter_error (hd : decode w = .error e) : bufferAfter buf (.command w) = buf := by
  simp only [bufferAfter, hd]

/-- Every command keeps `Tracks`: a byte is appended, a restart empties the buffer, and no other command touches it. -/
theorem exec_tracks (hinv : StateInv s) (h : Tracks s buf) (hd : decode w = .ok i) (hx : exec i s = .next t) :
    Tracks t (bufferAfter buf (.command w)) := by
  obtain ⟨b, rfl, step⟩ | ⟨m, hi, rfl⟩ | ⟨a, hi, rfl⟩ | ⟨c, d, hi, rfl⟩ | ⟨hi, c, d, rfl⟩ := exec_cases hx
  · rw [bufferAfter_scanByte hd]
    exact step.tracks hinv h
  · rw [bufferAfter_restart hd (.inl ⟨m, hi⟩)]
    exact tracks_respond_restartScan _ _
  · rw [bufferAfter_restart hd (.inr ⟨a, hi⟩)]
    exact tracks_respond_restartScan _ _
  · rw [bufferAfter_other hd (.inl ⟨c, hi⟩)]
    exact h.with_crc_input_rsp _ _ _
  · rw [bufferAfter_other hd (.inr hi)]
    exact h.with_crc_input_rsp _ _ _

end Buffer

/-- Settles O44: a command by `exec_tracks`, a reset starts an empty buffer, an illegal word changes neither side. -/
theorem everyStepTracksTheBuffer : Obligations.EveryStepTracksTheBuffer := by
  refine ⟨tracks_resetWith, fun s t buf x rest hinv h hinput hs => ?_⟩
  obtain ⟨c, rfl, rfl⟩ | ⟨w, e, rfl, hd, rfl⟩ | ⟨w, i, rfl, hd, hx⟩ := step_cons_cases hinput hs
  · exact tracks_resetWith rest
  · rw [bufferAfter_error hd]
    exact h.with_crc_input_rsp _ _ _
  · exact exec_tracks (hinv.with_crc_input_rsp _ _ _) (h.with_crc_input_rsp _ _ _) hd hx

end Sys2Proof.Machine
end

section
/-! SUPPORT. The frame of every command (10_state.md R21, R22, R32) and what no command looks at
(R36, R38; 20_memory.md R51, R61). -/

namespace Sys2Proof.Machine

variable {b : Byte} {i : Instr} {s t : State}

/-! ### What each branch of `SCAN_BYTE` leaves alone -/

theorem ByteStep.frame (step : ByteStep b s t) :
    t.crc = s.crc ∧ t.sync = s.sync ∧ t.fbase = s.fbase ∧ t.input = s.input := by
  cases step <;> exact ⟨rfl, rfl, rfl, rfl⟩

/-- A consumed byte moves `POS`, an ignored one does not. -/
theorem ByteStep.pos_rsp (step : ByteStep b s t) :
    (t.pos = s.pos + 1 ∧ t.rsp = some ⟨.ok, 0⟩) ∨ (t.pos = s.pos ∧ t.rsp = some ⟨.ignored, 0⟩) := by
  cases step with
  | final => exact .inr ⟨rfl, rfl⟩
  | _ => exact .inl ⟨rfl, rfl⟩

/-- `PCNT` grows by at most one, in PAYLOAD alone. -/
theorem ByteStep.pcnt_le (step : ByteStep b s t) :
    t.pcnt.toNat ≤ s.pcnt.toNat ∨ (s.st = .payload ∧ t.pcnt.toNat ≤ s.pcnt.toNat + 1) := by
  cases step with
  | payloadLast hst | payloadMore hst => exact .inr ⟨hst, (BitVec.toNat_add _ _).trans_le (Nat.mod_le _ _)⟩
  | hdrLengthZero | hdrLengthPositive => exact .inl (Nat.zero_le _)
  | _ => exact .inl (Nat.le_refl _)

/-- What `SCAN_BYTE b` leaves of the bytes `m`, where they stand in `PBUF`. -/
def pbufAfter (b : Byte) (s : State) (m : Memory) : Memory :=
  if s.st = .payload then m.write s.pcnt.toNat b else m

theorem pbufAfter_payload {m : Memory} (h : s.st = .payload) : pbufAfter b s m = m.write s.pcnt.toNat b := if_pos h

theorem pbufAfter_other {m : Memory} (h : s.st ≠ .payload) : pbufAfter b s m = m := if_neg h

/-- A byte of `PBUF` changes only at index `PCNT`, in PAYLOAD. -/
theorem read_pbufAfter {m : Memory} {a : Nat} (h : ¬(s.st = .payload ∧ a = s.pcnt.toNat)) :
    (pbufAfter b s m).read a = m.read a := by
  by_cases hst : s.st = .payload
  · rw [pbufAfter_payload hst, Memory.read_write_other _ fun e => h ⟨hst, e⟩]
  · rw [pbufAfter_other hst]

/-- A branch looks at neither the bytes in `PBUF`, nor the inputs to come, nor the last response. -/
theorem ByteStep.with_pbuf_input_rsp (step : ByteStep b s t) (m : Memory) (q : List HostInput) (r : Option Response) :
    ByteStep b { s with pbuf := m, input := q, rsp := r } { t with pbuf := pbufAfter b s m, input := q } := by
  cases step with
  | huntFirst hst h0 => rw [pbufAfter_other (by simp [hst])]; exact .huntFirst hst h0
  | huntOther hst h0 => rw [pbufAfter_other (by simp [hst])]; exact .huntOther hst h0
  | sync1Second hst h1 => rw [pbufAfter_other (by simp [hst])]; exact .sync1Second hst h1
  | sync1First hst h1 h0 => rw [pbufAfter_other (by simp [hst])]; exact .sync1First hst h1 h0
  | sync1Other hst h1 h0 => rw [pbufAfter_other (by simp [hst])]; exact .sync1Other hst h1 h0
  | hdrReservedHigh hst hi => rw [pbufAfter_other (by simp [hst])]; exact .hdrReservedHigh hst hi
  | hdrReservedLow hst hi => rw [pbufAfter_other (by simp [hst])]; exact .hdrReservedLow hst hi
  | hdrLengthHigh hst hi => rw [pbufAfter_other (by simp [hst])]; exact .hdrLengthHigh hst hi
  | hdrLengthZero hst hi hl => rw [pbufAfter_other (by simp [hst])]; exact .hdrLengthZero hst hi hl
  | hdrLengthPositive hst hi hl => rw [pbufAfter_other (by simp [hst])]; exact .hdrLengthPositive hst hi hl
  | hdrOutside hst hi => rw [pbufAfter_other (by simp [hst])]; exact .hdrOutside hst hi
  | payloadLast hst hp hl => rw [pbufAfter_payload hst]; exact .payloadLast hst hp hl
  | payloadMore hst hp hl => rw [pbufAfter_payload hst]; exact .payloadMore hst hp hl
  | checkMatch hst hc => rw [pbufAfter_other (by simp [hst])]; exact .checkMatch hst hc
  | checkMismatch hst hc => rw [pbufAfter_other (by simp [hst])]; exact .checkMismatch hst hc
  | final hst => rw [pbufAfter_other (by rintro e; rw [e] at hst; cases hst)]; exact .final hst

/-- Taken with `PBUF` as it is: what a byte leaves there. -/
theorem ByteStep.pbuf (step : ByteStep b s t) : t.pbuf = pbufAfter b s s.pbuf := by
  have same := (step.with_pbuf_input_rsp s.pbuf s.input s.rsp).exec_eq
  exact congrArg State.pbuf (Host.Outcome.next.inj (step.exec_eq.symm.trans same))

/-! ### The frame of every command -/

/-- Settles O30: `SCAN_BYTE` by its branches, every other command by the one update it makes. -/
theorem onlyTheListedCommandsWriteARegister : Obligations.OnlyTheListedCommandsWriteARegister := by
  intro i s t hx
  obtain ⟨b, rfl, step⟩ | ⟨m, rfl, rfl⟩ | ⟨a, rfl, rfl⟩ | ⟨b, c, hi, rfl⟩ | ⟨-, c, d, rfl⟩ := exec_cases hx
  · obtain ⟨hcrc, hsync, hfbase, hinput⟩ := step.frame
    refine ⟨absurd hcrc, absurd hsync, absurd hfbase, fun _ => .inr (.inr ⟨b, rfl⟩), fun a ha => ⟨⟨b, rfl⟩, ?_⟩, hinput⟩
    rw [step.pbuf] at ha
    exact not_not.1 (mt read_pbufAfter ha)
  · exact ⟨absurd rfl, fun _ => ⟨m, rfl⟩, absurd rfl, fun _ => .inr (.inl ⟨m, rfl⟩), fun _ => absurd rfl, rfl⟩
  · exact ⟨absurd rfl, absurd rfl, fun _ => ⟨a, rfl⟩, fun _ => .inl ⟨a, rfl⟩, fun _ => absurd rfl, rfl⟩
  · exact ⟨fun _ => ⟨b, hi⟩, absurd rfl, absurd rfl, fun h => by simp at h, fun _ => absurd rfl, rfl⟩
  · exact ⟨absurd rfl, absurd rfl, absurd rfl, fun h => by simp at h, fun _ => absurd rfl, rfl⟩

/-- Settles O34: a byte by `ByteStep.pos_rsp`; of every other command the update itself shows what becomes of `POS`. -/
theorem posCountsConsumedBytes : Obligations.PosCountsConsumedBytes := by
  intro i s t hx
  obtain ⟨b, rfl, step⟩ | ⟨m, rfl, rfl⟩ | ⟨a, rfl, rfl⟩ | ⟨b, c, rfl | rfl, rfl⟩ |
    ⟨rfl | ⟨k, rfl⟩ | ⟨k, rfl⟩, c, d, rfl⟩ := exec_cases hx
  · refine ⟨fun _ hr => ?_, fun _ hr => ?_, by simp, fun h => absurd rfl (h b)⟩
    · obtain ⟨hpos, -⟩ | ⟨-, hrsp⟩ := step.pos_rsp
      · rw [hpos, BitVec.toNat_add]
        rfl
      · rw [hrsp] at hr
        cases hr
    · obtain ⟨-, hrsp⟩ | ⟨hpos, -⟩ := step.pos_rsp
      · exact absurd hrsp hr
      · exact hpos
  all_goals simp

/-! ### What no command looks at -/

/-- No register shows `PBUF`, the inputs to come or the response. -/
theorem readReg_with_pbuf_input_rsp (n : RegName) (m : Memory) (q : List HostInput) (r : Option Response) :
    readReg n { s with pbuf := m, input := q, rsp := r } = readReg n s := by
  cases n <;> rfl

theorem exec_regRead_some {k : Half} {n : RegName} (h : regOfNumber k = some n) (s : State) :
    exec (.regRead k) s = .next (respond .ok (readReg n s) s) := by
  rw [exec_regRead, h]

theorem exec_regRead_none {k : Half} (h : regOfNumber k = none) (s : State) :
    exec (.regRead k) s = .next (respond .errIllegal 0 s) := by
  rw [exec_regRead, h]

theorem exec_input (hx : exec i s = .next t) : t.input = s.input := by
  obtain ⟨b, -, step⟩ | ⟨m, -, rfl⟩ | ⟨a, -, rfl⟩ | ⟨b, c, -, rfl⟩ | ⟨-, c, d, rfl⟩ := exec_cases hx
  · obtain ⟨-, -, -, hinput⟩ := step.frame
    exact hinput
  all_goals rfl

/-- Every command does the same whatever is to come and whatever was answered last. -/
theorem exec_with_input_rsp (hx : exec i s = .next t) (q : List HostInput) (r : Option Response) :
    exec i { s with input := q, rsp := r } = .next { t with input := q } := by
  cases i with
  | scanByte b =>
    have step := ByteStep.of_exec hx
    have h := (step.with_pbuf_input_rsp s.pbuf q r).exec_eq
    rwa [← step.pbuf] at h
  | payloadRead k =>
    rw [exec_payloadRead] at hx ⊢
    cases hx
    split <;> rfl
  | regRead k =>
    cases hk : regOfNumber k with
    | none =>
      rw [exec_regRead_none hk] at hx ⊢
      cases hx
      rfl
    | some n =>
      rw [exec_regRead_some hk] at hx ⊢
      cases hx
      rw [readReg_with_pbuf_input_rsp]
      rfl
  | nop | crcInit | crcByte | setSync | scanStart => cases hx; rfl

/-- Settles O36: a reset and an illegal word look at no state, a command by `exec_with_input_rsp`. -/
theorem stepReadsNoResponseAndNoLaterInput : Obligations.StepReadsNoResponseAndNoLaterInput := by
  intro s t x rest hinput hs
  obtain ⟨c, rfl, rfl⟩ | ⟨w, e, rfl, hd, rfl⟩ | ⟨w, i, rfl, hd, hx⟩ := step_cons_cases hinput hs
  · exact ⟨rfl, fun r later => (step_cons rfl).trans rfl⟩
  · exact ⟨rfl, fun r later => (step_command rfl).trans (acceptWord_error hd _)⟩
  · exact ⟨exec_input hx, fun r later =>
      (step_command rfl).trans ((acceptWord_ok hd _).trans (exec_with_input_rsp hx later r))⟩

/-! ### The bytes of `PBUF` from `PCNT` on -/

variable {m : Memory}

/-- A byte that `PAYLOAD_READ` answers with stands below `PCNT`. -/
theorem StateInv.lt_pcnt {k : Half} (h : StateInv s) (hst : s.st = .doneFound) (hk : k.toNat < s.flen.toNat) :
    k.toNat < s.pcnt.toNat := by
  obtain ⟨-, hpcnt, -⟩ := (stateInv_doneFound hst).1 h
  rwa [hpcnt]

theorem payloadRead_answers_alike (k : Half) (h : StateInv s)
    (agree : ∀ a, a < s.pcnt.toNat → s.pbuf.read a = m.read a) :
    ∃ c d, exec (.payloadRead k) s = .next (respond c d s) ∧
      exec (.payloadRead k) { s with pbuf := m } = .next (respond c d { s with pbuf := m }) := by
  rw [exec_payloadRead, exec_payloadRead]
  by_cases hk : s.st = .doneFound ∧ k.toNat < s.flen.toNat
  · rw [if_pos hk, if_pos hk, agree _ (h.lt_pcnt hk.1 hk.2)]
    exact ⟨_, _, rfl, rfl⟩
  · rw [if_neg hk, if_neg hk]
    exact ⟨_, _, rfl, rfl⟩

theorem regRead_answers_alike (k : Half) (s : State) (m : Memory) :
    ∃ c d, exec (.regRead k) s = .next (respond c d s) ∧
      exec (.regRead k) { s with pbuf := m } = .next (respond c d { s with pbuf := m }) := by
  cases hk : regOfNumber k with
  | none => exact ⟨_, _, exec_regRead_none hk _, exec_regRead_none hk _⟩
  | some n =>
    refine ⟨_, _, exec_regRead_some hk _, ?_⟩
    rw [exec_regRead_some hk, readReg_with_pbuf_input_rsp]

theorem scanByte_with_pbuf (step : ByteStep b s t) (m : Memory) :
    exec (.scanByte b) { s with pbuf := m } = .next { t with pbuf := pbufAfter b s m } := by
  have same := (step.with_pbuf_input_rsp m s.input s.rsp).exec_eq
  rw [← exec_input step.exec_eq] at same ⊢
  exact same

/-- Two buffers that agree below `PCNT` agree below the next `PCNT` once a byte has been stored in both. -/
theorem ByteStep.pbuf_agree (step : ByteStep b s t) (hs : s.pbuf.wf = true) (hm : m.wf = true)
    (agree : ∀ a, a < s.pcnt.toNat → s.pbuf.read a = m.read a) {a : Nat} (ha : a < t.pcnt.toNat) :
    t.pbuf.read a = (pbufAfter b s m).read a := by
  rw [step.pbuf]
  by_cases hlast : s.st = .payload ∧ a = s.pcnt.toNat
  · obtain ⟨hst, rfl⟩ := hlast
    rw [pbufAfter_payload hst, pbufAfter_payload hst, Memory.read_write_same _ _ hs, Memory.read_write_same _ _ hm]
  · rw [read_pbufAfter hlast, read_pbufAfter hlast]
    refine agree a ?_
    obtain le | ⟨hst, le⟩ := step.pcnt_le
    · omega
    · have : a ≠ s.pcnt.toNat := fun e => hlast ⟨hst, e⟩
      omega

/-- Settles O38: a byte goes to the same index of both buffers, a payload read asks below `PCNT`, and no other command
looks at `PBUF`. -/
theorem unreadPbufBytesAreNeverObserved : Obligations.UnreadPbufBytesAreNeverObserved := by
  rintro i s s' t hinv hinv' ⟨hs', agree⟩ hx
  generalize s'.pbuf = m at hs' agree
  subst hs'
  cases i with
  | scanByte b =>
    have step := ByteStep.of_exec hx
    exact ⟨_, scanByte_with_pbuf step m, ⟨rfl, fun _ => step.pbuf_agree hinv.pbuf_wf hinv'.pbuf_wf agree⟩, rfl⟩
  | payloadRead k =>
    obtain ⟨c, d, h, h'⟩ := payloadRead_answers_alike k hinv agree
    cases h.symm.trans hx
    exact ⟨_, h', ⟨rfl, agree⟩, rfl⟩
  | regRead k =>
    obtain ⟨c, d, h, h'⟩ := regRead_answers_alike k s m
    cases h.symm.trans hx
    exact ⟨_, h', ⟨rfl, agree⟩, rfl⟩
  | setSync | scanStart => cases hx; exact ⟨_, rfl, ⟨rfl, nofun⟩, rfl⟩
  | nop | crcInit | crcByte => cases hx; exact ⟨_, rfl, ⟨rfl, agree⟩, rfl⟩

end Sys2Proof.Machine
end

section
/-! SUPPORT. `STATUS` and the registers a host reads (10_state.md R22, R24, R38, R39). -/

namespace Sys2Proof.Machine

variable {s t : State}

/-! ### The fields of `STATUS` -/

theorem statusWord_state (st : ScanState) : (statusWord st).extractLsb' 0 3 = stCode st := by
  cases st <;> rfl

theorem statusWord_reason (st : ScanState) : (statusWord st).extractLsb' 4 2 = statusReason st := by
  cases st <;> rfl

theorem statusWord_result (st : ScanState) : (statusWord st).extractLsb' 6 2 = statusResult st := by
  cases st <;> rfl

theorem statusWord_done (st : ScanState) : (statusWord st).extractLsb' 8 1 = statusDone st := by
  cases st <;> rfl

/-- Settles O13. -/
theorem statusIsComputedFromTheScannerState : Obligations.StatusIsComputedFromTheScannerState := by
  intro s
  rw [statusWord_state, statusWord_reason, statusWord_result, statusWord_done, doneOutput]
  cases s.st <;> decide

/-! ### `REG_READ` shows every register -/

/-- The encoding of `ST` loses nothing (R23). -/
theorem stCode_injective : Function.Injective stCode := by
  intro a b
  cases a <;> cases b <;> decide

theorem statusWord_injective : Function.Injective statusWord := by
  intro a b h
  apply stCode_injective
  rw [← statusWord_state a, h, statusWord_state]

/-- Zero extension to a response's data loses nothing. -/
theorem zext32_injective {w : Nat} (hw : w ≤ 32) : Function.Injective (BitVec.setWidth (w := w) 32) := by
  intro x y h
  have := congrArg (BitVec.setWidth w) h
  rwa [BitVec.setWidth_setWidth_of_le x hw, BitVec.setWidth_setWidth_of_le y hw, BitVec.setWidth_eq,
    BitVec.setWidth_eq] at this

/-- States whose registers read alike differ in the fields alone that no register read shows. -/
theorem eq_of_readReg_eq (same : ∀ r, readReg r s = readReg r t) :
    t = { s with pbuf := t.pbuf, input := t.input, rsp := t.rsp } := by
  have hcrc : s.crc = t.crc := zext32_injective (by decide) (same .CRC)
  have hst : s.st = t.st := statusWord_injective (same .STATUS)
  have hsync : s.sync = t.sync := zext32_injective (by decide) (same .SYNC)
  have hfbase : s.fbase = t.fbase := zext32_injective (by decide) (same .FBASE)
  have hfrsv : s.frsv = t.frsv := zext32_injective (by decide) (same .FRSV)
  have hflen : s.flen = t.flen := zext32_injective (by decide) (same .FLEN)
  have hpcnt : s.pcnt = t.pcnt := zext32_injective (by decide) (same .PCNT)
  have hscrc : s.scrc = t.scrc := zext32_injective (by decide) (same .SCRC)
  have hrxcrc : s.rxcrc = t.rxcrc := zext32_injective (by decide) (same .RXCRC)
  have hpos : s.pos = t.pos := same .POS
  have hfstart : s.fstart = t.fstart := same .FSTART
  have hhidx : s.hidx = t.hidx := zext32_injective (by decide) (same .HIDX)
  rw [hcrc, hst, hsync, hfbase, hfrsv, hflen, hpcnt, hscrc, hrxcrc, hpos, hfstart, hhidx]

/-- Settles O40: equal answers to the twelve numbers are equal registers. -/
theorem regReadShowsAllRegisters : Obligations.RegReadShowsAllRegisters := by
  intro s t h
  refine eq_of_readReg_eq fun r => ?_
  have answers := h (regNumber r)
  rw [answer_regRead, answer_regRead] at answers
  exact congrArg Response.data (Option.some.inj answers)

end Sys2Proof.Machine
end

section
/-! SUPPORT. Repeated commands (20_memory.md R59) and the independence of the checksum unit and the scanner
(R62; 10_state.md R35). -/

namespace Sys2Proof.Machine

variable {b : Byte} {i : Instr} {s t : State}

/-- A command does the same after a response as before it: a response is not state (10_state.md R36). -/
theorem exec_respond (hx : exec i s = .next t) (c : RspCode) (d : Word) : exec i (respond c d s) = .next t :=
  (exec_with_input_rsp hx s.input (some ⟨c, d⟩)).trans (by rw [← exec_input hx])

theorem exec_read (hi : IsRead i) (hx : exec i s = .next t) : ∃ c d, t = respond c d s := by
  obtain ⟨b, rfl, -⟩ | ⟨m, rfl, -⟩ | ⟨a, rfl, -⟩ | ⟨b, c, rfl | rfl, -⟩ | ⟨-, h⟩ := exec_cases hx
  case inr.inr.inr.inr => exact h
  all_goals simp [IsRead] at hi

/-- Settles O33: a restart and `CRC_INIT` write values that look at no state, a read leaves all but the response. Against
the two byte commands stand a second fold from reset, and the marker `0x7E7E`, whose bytes leave HUNT and then SYNC1. -/
theorem idempotentCommands : Obligations.IdempotentCommands := by
  refine ⟨fun i s t hcrc hscan hx => ?_, fun i s t hi hx => ?_, ?_, ?_⟩
  · cases i with
    | crcByte b => exact absurd rfl (hcrc b)
    | scanByte b => exact absurd rfl (hscan b)
    | crcInit | setSync | scanStart => cases hx; rfl
    | nop | payloadRead | regRead =>
      obtain ⟨c, d, rfl⟩ := exec_read (by simp [IsRead]) hx
      exact exec_respond hx c d
  · obtain ⟨c, d, rfl⟩ := exec_read (by unfold IsRead; tauto) hx
    rfl
  · exact ⟨0x1A, State.reset, _, _, rfl, rfl, by decide +kernel⟩
  · exact ⟨0x7E, { State.reset with sync := 0x7E7E }, _, _, rfl, rfl, by decide⟩

/-! ### The two units -/

/-- A command of the checksum unit writes `CRC` alone, with a value that depends on `CRC` alone. -/
theorem exec_checksumUnit (hi : ∃ b, i = .crcInit b ∨ i = .crcByte b) (s : State) :
    ∃ c, ∀ u : State, u.crc = s.crc → exec i u = .next (respond .ok 0 { u with crc := c }) := by
  obtain ⟨b, rfl | rfl⟩ := hi
  · exact ⟨b, fun u _ => rfl⟩
  · exact ⟨crc8Step s.crc b, fun u hu => by rw [exec_crcByte, hu]⟩

/-- A branch of `SCAN_BYTE` does not look at `CRC`. -/
theorem ByteStep.with_crc (step : ByteStep b s t) (c : Byte) : ByteStep b { s with crc := c } { t with crc := c } := by
  cases step with
  | huntFirst hst h0 => exact .huntFirst hst h0
  | huntOther hst h0 => exact .huntOther hst h0
  | sync1Second hst h1 => exact .sync1Second hst h1
  | sync1First hst h1 h0 => exact .sync1First hst h1 h0
  | sync1Other hst h1 h0 => exact .sync1Other hst h1 h0
  | hdrReservedHigh hst hi => exact .hdrReservedHigh hst hi
  | hdrReservedLow hst hi => exact .hdrReservedLow hst hi
  | hdrLengthHigh hst hi => exact .hdrLengthHigh hst hi
  | hdrLengthZero hst hi hl => exact .hdrLengthZero hst hi hl
  | hdrLengthPositive hst hi hl => exact .hdrLengthPositive hst hi hl
  | hdrOutside hst hi => exact .hdrOutside hst hi
  | payloadLast hst hp hl => exact .payloadLast hst hp hl
  | payloadMore hst hp hl => exact .payloadMore hst hp hl
  | checkMatch hst hc => exact .checkMatch hst hc
  | checkMismatch hst hc => exact .checkMismatch hst hc
  | final hst => exact .final hst

theorem regOfNumber_eq_crc {k : Half} (h : regOfNumber k = some .CRC) : k = 0 := by
  unfold regOfNumber at h
  split at h
  · next hk => exact BitVec.eq_of_toNat_eq hk
  all_goals cases h

theorem readReg_with_crc {n : RegName} (hn : n ≠ .CRC) (s : State) (c : Byte) :
    readReg n { s with crc := c } = readReg n s := by
  cases n with
  | CRC => exact absurd rfl hn
  | _ => rfl

/-- Every command outside the checksum unit, a read of `CRC` apart, does the same whatever `CRC` holds. -/
theorem exec_with_crc (hinit : ∀ b, i ≠ .crcInit b) (hbyte : ∀ b, i ≠ .crcByte b) (hread : i ≠ .regRead 0x0000)
    (hx : exec i s = .next t) (c : Byte) : exec i { s with crc := c } = .next { t with crc := c } := by
  cases i with
  | crcInit b => exact absurd rfl (hinit b)
  | crcByte b => exact absurd rfl (hbyte b)
  | scanByte b => exact ((ByteStep.of_exec hx).with_crc c).exec_eq
  | payloadRead k =>
    rw [exec_payloadRead] at hx ⊢
    cases hx
    split <;> rfl
  | regRead k =>
    cases hk : regOfNumber k with
    | none =>
      rw [exec_regRead_none hk] at hx ⊢
      cases hx
      rfl
    | some n =>
      have hn : n ≠ .CRC := by
        rintro rfl
        exact hread (congrArg _ (regOfNumber_eq_crc hk))
      rw [exec_regRead_some hk] at hx ⊢
      cases hx
      rw [readReg_with_crc hn]
      rfl
  | nop | setSync | scanStart => cases hx; rfl

theorem exec_crc_eq (hinit : ∀ b, i ≠ .crcInit b) (hbyte : ∀ b, i ≠ .crcByte b) (hx : exec i s = .next t) :
    t.crc = s.crc := by
  by_contra hne
  obtain ⟨writesCrc, -⟩ := onlyTheListedCommandsWriteARegister i s t hx
  obtain ⟨b, hi | hi⟩ := writesCrc hne
  · exact hinit b hi
  · exact hbyte b hi

/-- Settles O35: the first two clauses are `exec_checksumUnit` and `exec_with_crc`; in either order both units' writes stand,
so the commands commute. -/
theorem theTwoUnitsAreIndependent : Obligations.TheTwoUnitsAreIndependent := by
  refine ⟨fun i s t hi hx => ?_, fun i s t c hinit hbyte hread hx => ?_, ?_⟩
  · obtain ⟨c, hexec⟩ := exec_checksumUnit hi s
    cases (hexec s rfl).symm.trans hx
    exact ⟨rfl, hexec⟩
  · exact ⟨exec_crc_eq hinit hbyte hx, exec_with_crc hinit hbyte hread hx c⟩
  · intro i j s s1 s2 t1 t2 hi hj hs1 hs2 ht1 ht2
    obtain ⟨hinit, hbyte, hread⟩ :
        (∀ b, j ≠ .crcInit b) ∧ (∀ b, j ≠ .crcByte b) ∧ j ≠ .regRead 0x0000 := by
      obtain ⟨h, rfl⟩ | ⟨h, rfl⟩ | ⟨b, rfl⟩ := hj <;> exact ⟨nofun, nofun, nofun⟩
    obtain ⟨c, hexec⟩ := exec_checksumUnit hi s
    cases (hexec s rfl).symm.trans hs1
    cases (hexec t1 (exec_crc_eq hinit hbyte ht1)).symm.trans ht2
    cases (exec_respond (exec_with_crc hinit hbyte hread ht1 c) .ok 0).symm.trans hs2
    rfl

end Sys2Proof.Machine
end

section
/-! SUPPORT. A complete frame in a buffer (30_encoding.md R80, 41_scanner.md R120), and what the state after a run
from reset holds (R121; 20_memory.md R51). -/

namespace Sys2Proof.Machine

/-! ### The parts of a frame in its buffer -/

theorem markerAt_succ {m0 m1 a : Byte} {buf : List Byte} {n : Nat} :
    markerAt m0 m1 (a :: buf) (n + 1) ↔ markerAt m0 m1 buf n := Iff.rfl

/-- Where the first marker is found, a marker stands. -/
theorem markerAt_of_findMarker {m0 m1 : Byte} {buf : List Byte} {n : Nat} (h : findMarker m0 m1 buf = some n) :
    markerAt m0 m1 buf n := by
  induction buf generalizing n with
  | nil => cases h
  | cons a rest ih =>
    rw [findMarker_cons] at h
    split at h
    · next hm =>
      cases h
      exact ⟨congrArg some hm.1, List.head?_eq_getElem?.symm.trans hm.2⟩
    · obtain ⟨k, hk, rfl⟩ := Option.map_eq_some_iff.1 h
      exact markerAt_succ.2 (ih hk)

section Frame

variable {pre hdr pay : List Byte}

theorem byteAt_header (pre after : List Byte) {k : Nat} (hk : k < hdr.length) :
    byteAt (pre ++ hdr ++ after) (pre.length + k) = byteAt hdr k := by
  rw [List.append_assoc, byteAt_append_right, byteAt_append_left hk]

/-- The length field of a frame is the big-endian number in bytes 4 and 5 of its header. -/
theorem lengthField_frame (pre : List Byte) (hlen : hdr.length = 6) (after : List Byte) :
    lengthField (pre ++ hdr ++ after) pre.length = (pairBytes (hdr.getD 4 0) (hdr.getD 5 0)).toNat := by
  rw [lengthField, byteAt_header _ _ (by omega), byteAt_header _ _ (by omega), pairBytes_toNat]
  rfl

theorem slice_frame (pre : List Byte) (hlen : hdr.length = 6) (pay after : List Byte) :
    slice (pre ++ hdr ++ pay ++ after) pre.length (pre.length + 6 + pay.length) = hdr ++ pay := by
  have h := slice_middle pre (hdr ++ pay) after
  rwa [List.length_append, hlen, ← Nat.add_assoc, ← List.append_assoc] at h

theorem byteAt_payload (pre : List Byte) (hlen : hdr.length = 6) (after : List Byte) {k : Nat} (hk : k < pay.length) :
    byteAt (pre ++ hdr ++ pay ++ after) (pre.length + 6 + k) = byteAt pay k := by
  rw [← hlen, ← List.length_append, List.append_assoc, byteAt_append_right, byteAt_append_left hk]

theorem byteAt_checksum (pre : List Byte) (hlen : hdr.length = 6) (pay : List Byte) (c : Byte) (more : List Byte) :
    byteAt (pre ++ hdr ++ pay ++ c :: more) (pre.length + 6 + pay.length) = c := by
  have h := byteAt_append_right (pre ++ hdr ++ pay) (c :: more) 0
  rwa [List.length_append, List.length_append, hlen] at h

end Frame

/-! ### Runs -/

/-- The first step of a core's run that completes. -/
theorem core_run_succ (M : Host.Core) {n : Nat} {s t : M.State} (h : M.run (n + 1) s = .next t) :
    ∃ u, M.step s = .next u ∧ M.run n u = .next t := by
  rw [Host.Core.run] at h
  split at h
  · next u hu => exact ⟨u, hu, h⟩
  · cases h
  · cases h

theorem runFor_succ {n : Nat} {s t : State} (h : runFor (n + 1) s = .next t) :
    ∃ u, step s = .next u ∧ runFor n u = .next t := core_run_succ Sys2Proof.core h

/-- A run keeps the invariant and tracks the buffer of the inputs it takes; with no input left it only idles. -/
theorem runFor_tracks {n : Nat} {s t : State} {buf : List Byte} (hinv : StateInv s) (h : Tracks s buf)
    (hrun : runFor n s = .next t) : StateInv t ∧ Tracks t ((s.input.take n).foldl bufferAfter buf) := by
  induction n generalizing s buf with
  | zero => cases hrun; exact ⟨hinv, h⟩
  | succ n ih =>
    obtain ⟨u, hu, hrun⟩ := runFor_succ hrun
    have hinv' := everyStepKeepsTheInvariant s u hinv hu
    cases hin : s.input with
    | nil =>
      cases (step_nil hin).symm.trans hu
      have := ih hinv' (h.with_crc_input_rsp s.crc s.input none) hrun
      rwa [idle_input, hin, List.take_nil] at this
    | cons x rest =>
      obtain ⟨hrest, -⟩ := stepReadsNoResponseAndNoLaterInput s u x rest hin hu
      have := ih hinv' (everyStepTracksTheBuffer.2 s u buf x rest hinv h hin hu) hrun
      rwa [hrest] at this

theorem tracks_of_run {inputs : List HostInput} {n : Nat} {t : State} (hrun : runFor n (resetWith inputs) = .next t) :
    Tracks t (bufferOf (inputs.take n)) :=
  (runFor_tracks (stateInv_resetWith inputs) (tracks_resetWith inputs) hrun).2

/-- `PAYLOAD_READ` answers `OK` only with the byte at its index, for a Found frame (42_host_access.md R161). -/
theorem payloadRead_ok {k : Half} {d : Word} {t : State} (h : answer (.payloadRead k) t = some ⟨.ok, d⟩) :
    t.st = .doneFound ∧ k.toNat < t.flen.toNat ∧ d = (t.pbuf.read k.toNat).setWidth 32 := by
  rw [answer_payloadRead] at h
  split at h
  · next hk => cases h; exact ⟨hk.1, hk.2, rfl⟩
  · cases h

/-- Settles O46: in DONE_FOUND the tracked buffer is the frame `hdr`, `pay`, its checksum byte, and what surrounds them. -/
theorem onlyValidatedBytesAreExposed : Obligations.OnlyValidatedBytesAreExposed := by
  intro inputs n t k d hrun hread
  obtain ⟨hst, hk, rfl⟩ := payloadRead_ok hread
  obtain ⟨pre, hdr, pay, more, hbuf, frame, hhdr, hpay, hcrc, -⟩ := (tracks_doneFound hst).1 (tracks_of_run hrun)
  rw [← hpay] at hk
  rw [hbuf]
  refine ⟨pre.length, pay.length, ?marker, ?length, hk, ?complete, ?checksum, ?byte⟩
  case marker =>
    rw [List.append_assoc]
    exact markerAt_of_findMarker (findMarker_append_of_some frame.first_marker _)
  case length => rw [List.append_assoc, lengthField_frame pre hhdr, ← frame.flen, hpay]
  case complete => simp only [List.length_append, List.length_cons, hhdr]; omega
  case checksum =>
    rw [slice_frame pre hhdr, byteAt_checksum pre hhdr, hcrc, frame.scrc]
    rfl
  case byte => rw [byteAt_payload pre hhdr _ hk, frame.pbuf _ hk]

end Sys2Proof.Machine
end

section
/-! SUPPORT. A step of one block of a platform (20_memory.md R64, 60_exceptions.md R190). -/

namespace Sys2Proof.Machine

variable {k : Nat} {p q : Platform} {s t : State}

theorem platformStep_of_step (hk : p[k]? = some s) (hs : step s = .next t) : platformStep k p = .next (p.set k t) := by
  unfold platformStep
  rw [hk]
  dsimp only
  rw [hs]

/-- All a platform's step can do: nothing where there is no block `k`, that block's own step where there is one. -/
theorem platformStep_cases (h : platformStep k p = .next q) :
    (p[k]? = none ∧ q = p) ∨ ∃ s t, p[k]? = some s ∧ step s = .next t ∧ q = p.set k t := by
  unfold platformStep at h
  split at h
  · next hk => cases h; exact .inl ⟨hk, rfl⟩
  · next s hk =>
    split at h
    · next t hs => cases h; exact .inr ⟨s, t, hk, hs, rfl⟩
    · cases h
    · cases h

/-- Settles O52: the step replaces entry `k` of the list, which leaves its length and every other entry. -/
theorem instancesShareNothing : Obligations.InstancesShareNothing := by
  refine ⟨fun k p q h => ?_, fun k p s t => platformStep_of_step, List.length_replicate, fun s => List.eq_of_mem_replicate⟩
  obtain ⟨hk, rfl⟩ | ⟨s, t, hk, hs, rfl⟩ := platformStep_cases h
  · exact ⟨rfl, fun _ _ => rfl, fun s hs => by rw [hk] at hs; cases hs⟩
  · refine ⟨List.length_set, fun j hj => List.getElem?_set_ne hj.symm, fun s' hs' => ⟨t, ?_, ?_⟩⟩
    · rwa [← Option.some.inj (hk.symm.trans hs')]
    · rw [List.getElem?_set_self (List.getElem?_eq_some_iff.1 hk).1]

end Sys2Proof.Machine
end

section
/-! SUPPORT. The decoder read backwards, its rejections, and the rows of the opcode table as masks on a word's
two fields (30_encoding.md R71 to R75). -/

namespace Sys2Proof

open Machine

variable {i j : Instr} {imm : Half} {op : Byte} {w : CmdWord}

/-- Every command's word carries its two fields, with a legal `IMM`. -/
theorem encodes_statement (i : Instr) : Laws.Encodes.Statement i := by
  cases i with
  | nop => exact Laws.Encodes.nop
  | crcInit b => exact Laws.Encodes.crcInit b
  | crcByte b => exact Laws.Encodes.crcByte b
  | setSync h => exact Laws.Encodes.setSync h
  | scanStart h => exact Laws.Encodes.scanStart h
  | scanByte b => exact Laws.Encodes.scanByte b
  | payloadRead h => exact Laws.Encodes.payloadRead h
  | regRead h => exact Laws.Encodes.regRead h

theorem wordOp_encode (i : Instr) : wordOp (encode i) = opcodeOf i := (encodes_statement i).1

theorem wordImm_encode (i : Instr) : wordImm (encode i) = immOf i := (encodes_statement i).2.1

theorem Instr.wellFormed_eq_true (i : Instr) : i.wellFormed = true := (encodes_statement i).2.2

/-! ### The three forms -/

theorem decodeN_eq (i : Instr) (imm : Half) :
    decodeN i imm = if imm ≠ 0 then .error (.immNotZero imm) else .ok i := by
  simp [decodeN, immLegal]

theorem decodeB_eq (k : Byte → Instr) (imm : Half) :
    decodeB k imm = if hiByte imm ≠ 0 then .error (.immHighNotZero imm) else .ok (k (loByte imm)) := by
  simp [decodeB, immLegal]

theorem decodeN_eq_ok (h : decodeN j imm = .ok i) : imm = 0 ∧ i = j := by
  rw [decodeN_eq] at h
  split at h
  · cases h
  · next h0 => cases h; exact ⟨not_not.1 h0, rfl⟩

/-- Form B drops no bit: the byte it keeps, zero-extended, is the whole `IMM`. -/
theorem decodeB_eq_ok {k : Byte → Instr} (h : decodeB k imm = .ok i) : ∃ b, imm = pairBytes 0 b ∧ i = k b := by
  rw [decodeB_eq] at h
  split at h
  · cases h
  · next h0 => cases h; exact ⟨loByte imm, by rw [← not_not.1 h0, pairBytes_halves], rfl⟩

/-! ### The opcodes -/

/-- The eight opcodes of R73; `decodeFields_undefined` says that the decoder knows no other. -/
def definedOpcodes : List Byte := [0x00, 0x01, 0x02, 0x10, 0x11, 0x12, 0x20, 0x21]

theorem decodeFields_undefined (h : op ∉ definedOpcodes) (imm : Half) :
    decodeFields op imm = .error (.undefinedOpcode op) := by
  simp only [definedOpcodes, List.mem_cons, List.not_mem_nil, or_false, not_or] at h
  simp only [decodeFields, h, if_false]

/-- R74's three ranges hold none of the eight. -/
theorem not_mem_definedOpcodes (h : (0x03 ≤ op.toNat ∧ op.toNat ≤ 0x0F) ∨ (0x13 ≤ op.toNat ∧ op.toNat ≤ 0x1F) ∨
    (0x22 ≤ op.toNat ∧ op.toNat ≤ 0xFF)) : op ∉ definedOpcodes := by
  intro hmem
  revert h
  revert op
  decide

/-- The fields of a word that decodes are those of its command. -/
theorem fields_of_decodeFields (h : decodeFields op imm = .ok i) : op = opcodeOf i ∧ imm = immOf i := by
  unfold decodeFields at h
  split_ifs at h with hop hop hop hop hop hop hop hop
  · obtain ⟨rfl, rfl⟩ := decodeN_eq_ok h; exact ⟨hop, rfl⟩
  · obtain ⟨b, rfl, rfl⟩ := decodeB_eq_ok h; exact ⟨hop, rfl⟩
  · obtain ⟨b, rfl, rfl⟩ := decodeB_eq_ok h; exact ⟨hop, rfl⟩
  · cases h; exact ⟨hop, rfl⟩
  · cases h; exact ⟨hop, rfl⟩
  · obtain ⟨b, rfl, rfl⟩ := decodeB_eq_ok h; exact ⟨hop, rfl⟩
  · cases h; exact ⟨hop, rfl⟩
  · cases h; exact ⟨hop, rfl⟩

theorem encode_of_decode (h : decode w = .ok i) : encode i = w := by
  obtain ⟨hop, himm⟩ := fields_of_decodeFields h
  rw [encode, ← hop, ← himm, word_of_fields]

/-- Settles O8: the fields of a word determine it, and those of a word that decodes are its command's. -/
theorem decodeAndEncodeAgree : Obligations.DecodeAndEncodeAgree :=
  ⟨fun i _ => decode_encode i, fun _ _ => encode_of_decode, Instr.wellFormed_eq_true⟩

/-- Settles O7: a word that decodes is its command's, and each rejected word is rejected by the check it was written for. -/
theorem theSpecsWordsDecode : Obligations.TheSpecsWordsDecode :=
  ⟨decode_encode .nop, decode_encode (.crcInit 0xFF), decode_encode (.crcByte 0x1A), decode_encode (.setSync 0x7E7E),
    decode_encode (.scanStart 0x04AF), decode_encode (.scanByte 0xD5), decode_encode (.payloadRead 0xFFFF),
    decode_encode (.regRead 0x000B), rfl, rfl, rfl⟩

/-- Settles O5: no opcode of R74's ranges is one of the eight, so the decoder's first check rejects the word. -/
theorem undefinedOpcodesAnswerErrIllegal : Obligations.UndefinedOpcodesAnswerErrIllegal := by
  intro op imm s rest hop hinput
  have rejected : decode (op ++ imm) = .error (.undefinedOpcode op) :=
    (decode_fields op imm).trans (decodeFields_undefined (not_mem_definedOpcodes hop) imm)
  rw [step_command hinput, acceptWord_error rejected]
  rfl

/-! ### The opcode table -/

/-- The bits of `IMM` that a form fixes at 0. -/
def immMask (f : Form) : Half :=
  match f with
  | .N => 0xFFFF
  | .B => 0xFF00
  | .H => 0x0000

theorem and_immMask_eq_zero (f : Form) (imm : Half) : imm &&& immMask f = 0 ↔ immLegal f imm = true := by
  cases f with
  | N => rw [show immMask .N = BitVec.allOnes 16 from rfl, BitVec.and_allOnes]; simp [immLegal]
  | B =>
    have masked : imm &&& immMask .B = pairBytes (hiByte imm) 0 := by
      conv_lhs => rw [← pairBytes_halves imm]
      exact BitVec.and_append.trans (congrArg₂ (· ++ ·) BitVec.and_allOnes BitVec.and_zero)
    rw [masked, immLegal, beq_iff_eq, ← pairBytes_zero]
    exact ⟨fun h => (pairBytes_inj h).1, fun h => by rw [h]⟩
  | H => exact iff_of_true BitVec.and_zero rfl

/-- The row of a command: its opcode, and the bits of `IMM` its form fixes. -/
def rowOf (i : Instr) : OpcodeRow :=
  ⟨mnemonicOf i, formOf i, opcodeOf i ++ (0 : Half), (0xFF : Byte) ++ immMask (formOf i)⟩

/-- The table is the rows of the eight commands; the operand does not matter. -/
theorem opcodeTable_eq : opcodeTable =
    [.nop, .crcInit 0, .crcByte 0, .setSync 0, .scanStart 0, .scanByte 0, .payloadRead 0, .regRead 0].map rowOf := by
  decide

theorem rowOf_mem (i : Instr) : rowOf i ∈ opcodeTable := by
  cases i <;> (dsimp only [rowOf, mnemonicOf, formOf, opcodeOf]; decide)

theorem exists_rowOf {r : OpcodeRow} (hr : r ∈ opcodeTable) : ∃ i, rowOf i = r := by
  rw [opcodeTable_eq] at hr
  obtain ⟨i, -, hi⟩ := List.mem_map.1 hr
  exact ⟨i, hi⟩

theorem fields_inj {op' : Byte} {imm' : Half} (h : (op ++ imm : CmdWord) = op' ++ imm') : op = op' ∧ imm = imm' :=
  ⟨by simpa using congrArg wordOp h, by simpa using congrArg wordImm h⟩

theorem rowOf_covers (i : Instr) (w : CmdWord) :
    (rowOf i).covers w = true ↔ wordOp w = opcodeOf i ∧ immLegal (formOf i) (wordImm w) = true := by
  have masked : w &&& (rowOf i).mask = wordOp w ++ (wordImm w &&& immMask (formOf i)) := by
    conv_lhs => rw [← word_of_fields w]
    exact BitVec.and_append.trans (congrArg (· ++ _) BitVec.and_allOnes)
  rw [OpcodeRow.covers, beq_iff_eq, masked, ← and_immMask_eq_zero]
  exact ⟨fields_inj, fun ⟨hop, himm⟩ => by rw [hop, himm]; rfl⟩

/-- A word of a row is accepted, as a command of that row. -/
theorem decode_of_covers (h : (rowOf i).covers w = true) : ∃ j, decode w = .ok j ∧ rowOf j = rowOf i := by
  obtain ⟨hop, himm⟩ := (rowOf_covers i w).1 h
  rw [decode, hop]
  cases i with
  | nop | crcInit | crcByte | scanByte => exact ⟨_, if_pos himm, rfl⟩
  | setSync | scanStart | payloadRead | regRead => exact ⟨_, rfl, rfl⟩

theorem rowOf_covers_of_decode (h : decode w = .ok i) : (rowOf i).covers w = true := by
  rw [rowOf_covers, ← encode_of_decode h, wordOp_encode, wordImm_encode]
  exact ⟨rfl, i.wellFormed_eq_true⟩

/-- No word has two rows, since it decodes to one command. -/
theorem eq_rowOf_of_covers {r : OpcodeRow} (hr : r ∈ opcodeTable) (hd : decode w = .ok i) (hw : r.covers w = true) :
    r = rowOf i := by
  obtain ⟨k, rfl⟩ := exists_rowOf hr
  obtain ⟨j, hj, hrow⟩ := decode_of_covers hw
  cases hd.symm.trans hj
  exact hrow.symm

/-- Settles O9: the checks by cases on the opcode; the rows by `rowOf`, the one row of a command. -/
theorem decoderMakesTheChecksInOrder : Obligations.DecoderMakesTheChecksInOrder := by
  refine ⟨fun op imm => ?_, fun w s => ?_, fun w i hd => ?_, fun w r hr hw => ?_⟩
  · rw [decode_fields]
    split
    · next undefined => exact decodeFields_undefined undefined imm
    · next defined =>
      have hop := not_not.1 defined
      simp only [List.mem_cons, List.not_mem_nil, or_false] at hop
      rcases hop with rfl | rfl | rfl | rfl | rfl | rfl | rfl | rfl <;>
        simp [decodeFields, decodeN_eq, decodeB_eq, decodeH]
  · cases hd : decode w with
    | ok i => exact acceptWord_ok hd s
    | error e => exact acceptWord_error hd s
  · exact ⟨rowOf i, rowOf_mem i, rowOf_covers_of_decode hd, rfl, rfl, fun r hr => eq_rowOf_of_covers hr hd⟩
  · obtain ⟨i, rfl⟩ := exists_rowOf hr
    obtain ⟨j, hj, hrow⟩ := decode_of_covers hw
    exact ⟨j, hj, congrArg OpcodeRow.mnemonic hrow, congrArg OpcodeRow.form hrow⟩

end Sys2Proof
end

section
/-! SUPPORT. The words of a whole line, and what each kind of line parses to (30_encoding.md R78, R79). -/

namespace Sys2Proof.Machine

variable {i : Instr} {m w x num tail : List Char} {ws : List (List Char)} {line : String} {l : AsmLine} {n : Nat} {b : Byte}
  {bs : List Byte}

/-! ### The words of a line -/

/-- A text that splits off as one word. -/
def IsWord (w : List Char) : Prop := PlainWord w ∧ w ≠ []

theorem isWord_mnemonic (i : Instr) : IsWord (mnemonicOf i).toList :=
  ⟨plainWord_mnemonic i, by cases i <;> (dsimp only [mnemonicOf]; exact List.cons_ne_nil _ _)⟩

theorem isWord_regName (r : RegName) : IsWord (regNameText r).toList :=
  ⟨plainWord_regName r, by cases r <;> exact List.cons_ne_nil _ _⟩

/-- The mnemonics of R79's pseudo-instructions. -/
theorem isWord_pseudo {name : String}
    (h : name ∈ ["CRC_SEED", "CRC_READ", "SCAN_STATUS", "CRC_BYTES", "SCAN_BYTES"]) : IsWord name.toList := by
  simp only [List.mem_cons, List.not_mem_nil, or_false] at h
  rcases h with rfl | rfl | rfl | rfl | rfl <;> exact ⟨plainWord_of_all rfl, List.cons_ne_nil _ _⟩

theorem NumberText.isWord (h : NumberText num n) : IsWord num := ⟨h.plain, h.ne_nil⟩

theorem stripComment_word (h : IsWord w) (rest : List Char) : stripComment (w ++ rest) = w ++ stripComment rest :=
  stripComment_append (fun c hc => (h.1 c hc).2.2) rest

/-- The words of a line, its comment dropped. -/
def wordsOf (cs : List Char) : List (List Char) := tokens (stripComment cs)

theorem wordsOf_word_blank (h : IsWord w) (rest : List Char) : wordsOf (w ++ ' ' :: rest) = w :: wordsOf rest := by
  rw [wordsOf, stripComment_word h]
  exact tokens_word_blank _ h.1 h.2

theorem wordsOf_word_comma (h : IsWord w) (rest : List Char) :
    wordsOf (w ++ ',' :: ' ' :: rest) = w :: [','] :: wordsOf rest := by
  rw [wordsOf, stripComment_word h]
  exact tokens_word_comma _ h.1 h.2

theorem wordsOf_word_lineEnd (h : IsWord w) (htail : LineEnd tail) : wordsOf (w ++ tail) = [w] := by
  obtain ⟨k, hk⟩ := stripComment_lineEnd htail
  rw [wordsOf, stripComment_word h, hk, tokens_word_spaces k h.1 h.2]

/-- `b1, ..., bn`: each further word of a list stands after a comma. -/
def commaWords (ws : List (List Char)) : List (List Char) := ws.flatMap (fun w => [[','], w])

theorem wordsOf_list (hw : IsWord w) (hws : ∀ v ∈ ws, IsWord v) (htail : LineEnd tail) :
    wordsOf ([',', ' '].intercalate (w :: ws) ++ tail) = w :: commaWords ws := by
  induction ws generalizing w with
  | nil =>
    rw [List.intercalate_singleton]
    exact wordsOf_word_lineEnd hw htail
  | cons v ws ih =>
    rw [List.intercalate_cons_cons, List.append_assoc, List.append_assoc]
    obtain ⟨hv, hws⟩ := List.forall_mem_cons.1 hws
    exact (wordsOf_word_comma hw _).trans (congrArg (w :: [','] :: ·) (ih hv hws))

/-! ### A line whose words parse -/

theorem assembleLine_bare (hm : IsWord m) (htail : LineEnd tail) (hp : parseLine [m] = some l)
    (hl : line.toList = m ++ tail) : assembleLine line = some ((expand l).map encode) := by
  refine assembleLine_of_tokens ?_ hp
  rw [hl]
  exact wordsOf_word_lineEnd hm htail

theorem assembleLine_unary (hm : IsWord m) (hx : IsWord x) (htail : LineEnd tail) (hp : parseLine [m, x] = some l)
    (hl : line.toList = m ++ ' ' :: x ++ tail) : assembleLine line = some ((expand l).map encode) := by
  refine assembleLine_of_tokens ?_ hp
  rw [hl, List.append_assoc, List.cons_append]
  exact (wordsOf_word_blank hm _).trans (congrArg (m :: ·) (wordsOf_word_lineEnd hx htail))

theorem assembleLine_list (hm : IsWord m) (hw : IsWord w) (hws : ∀ v ∈ ws, IsWord v)
    (htail : LineEnd tail) (hp : parseLine (m :: w :: commaWords ws) = some l)
    (hl : line.toList = m ++ ' ' :: [',', ' '].intercalate (w :: ws) ++ tail) :
    assembleLine line = some ((expand l).map encode) := by
  refine assembleLine_of_tokens ?_ hp
  rw [hl, List.append_assoc, List.cons_append]
  exact (wordsOf_word_blank hm _).trans (congrArg (m :: ·) (wordsOf_list hw hws htail))

/-! ### Forms N, B and H -/

theorem eq_nop_of_formN (h : formOf i = .N) : i = .nop := by
  cases i with
  | nop => rfl
  | crcInit | crcByte | setSync | scanStart | scanByte | payloadRead | regRead => cases h

theorem pairBytes_zero_toNat (b : Byte) : (pairBytes 0 b).toNat = b.toNat := by
  rw [pairBytes_toNat]
  exact Nat.zero_add _

theorem parseUnary_formB {k : Byte → Instr} (hm : formBCommand m = some k) (x : List Char) :
    parseUnary m x = (parseByte x).map (fun b => .command (k b)) := by
  rw [parseUnary, hm]

theorem parseUnary_formH {k : Half → Instr} (hb : formBCommand m = none) (hm : formHCommand m = some k) (x : List Char) :
    parseUnary m x = (parseHalf x).map (fun h => .command (k h)) := by
  rw [parseUnary, hb, hm]

theorem parseUnary_regRead (x : List Char) :
    parseUnary "REG_READ".toList x = (parseReg x).map (fun h => .command (.regRead h)) := rfl

/-- A form B command's mnemonic makes of a byte the command on that byte. -/
theorem parseUnary_of_formB (hf : formOf i = .B) : ∃ (k : Byte → Instr) (b : Byte), i = k b ∧
    (immOf i).toNat = b.toNat ∧ ∀ x, parseUnary (mnemonicOf i).toList x = (parseByte x).map (fun c => .command (k c)) := by
  cases i with
  | nop | setSync | scanStart | payloadRead | regRead => cases hf
  | crcInit b | crcByte b | scanByte b =>
    dsimp only [mnemonicOf]
    exact ⟨_, b, rfl, pairBytes_zero_toNat b, parseUnary_formB rfl⟩

/-- A form H command's mnemonic makes of a number the command on that number; no number is a register's name. -/
theorem parseUnary_of_formH (hf : formOf i = .H) : ∃ (k : Half → Instr) (h : Half), i = k h ∧ immOf i = h ∧
    ∀ {x n}, NumberText x n → parseUnary (mnemonicOf i).toList x = (parseHalf x).map (fun c => .command (k c)) := by
  cases i with
  | nop | crcInit | crcByte | scanByte => cases hf
  | setSync h | scanStart h | payloadRead h =>
    dsimp only [mnemonicOf]
    exact ⟨_, h, rfl, rfl, fun _ => parseUnary_formH rfl rfl _⟩
  | regRead h => exact ⟨.regRead, h, rfl, rfl, fun hx => (parseUnary_regRead _).trans (by rw [hx.parseReg])⟩

/-- A number in the form's range is read as the command's operand. -/
theorem parseUnary_number (hi : formOf i = .B ∨ formOf i = .H) (hn : NumberText num (immOf i).toNat) :
    parseUnary (mnemonicOf i).toList num = some (.command i) := by
  rcases hi with hf | hf
  · obtain ⟨k, b, hkb, himm, hk⟩ := parseUnary_of_formB hf
    rw [himm] at hn
    rw [hk, hn.parseByte, hkb]
    rfl
  · obtain ⟨k, h, hkh, himm, hk⟩ := parseUnary_of_formH hf
    rw [himm] at hn
    rw [hk hn, hn.parseHalf, hkh]
    rfl

theorem NumberText.parseByte_eq_none (h : NumberText num n) (hn : 256 ≤ n) : Machine.parseByte num = none := by
  rw [Machine.parseByte, h.parse]
  exact if_neg (by omega)

theorem NumberText.parseHalf_eq_none (h : NumberText num n) (hn : 65536 ≤ n) : Machine.parseHalf num = none := by
  rw [Machine.parseHalf, h.parse]
  exact if_neg (by omega)

/-- A number past the form's range is read as no operand. -/
theorem parseUnary_outOfRange (hn : NumberText num n)
    (hi : (formOf i = .B ∧ 256 ≤ n) ∨ (formOf i = .H ∧ 65536 ≤ n)) :
    parseUnary (mnemonicOf i).toList num = none := by
  rcases hi with ⟨hf, hlarge⟩ | ⟨hf, hlarge⟩
  · obtain ⟨k, b, -, -, hk⟩ := parseUnary_of_formB hf
    rw [hk, hn.parseByte_eq_none hlarge]
    rfl
  · obtain ⟨k, h, -, -, hk⟩ := parseUnary_of_formH hf
    rw [hk hn, hn.parseHalf_eq_none hlarge]
    rfl

theorem parseUnary_regName (r : RegName) :
    parseUnary "REG_READ".toList (regNameText r).toList = some (.command (.regRead (regNumber r))) := by
  cases r <;> rfl

theorem parseLine_of_parseUnary (h : parseUnary m x = some l) : parseLine [m, x] = some l := by
  unfold parseLine
  dsimp only
  rw [h]

/-! ### Lists of bytes -/

/-- Texts of the bytes of a list, in order. -/
def NumberTexts (ws : List (List Char)) (bs : List Byte) : Prop :=
  List.Forall₂ (fun w b => NumberText w b.toNat) ws bs

/-- What is no line with one operand can only be a list. -/
theorem parseLine_of_parseUnary_eq_none (h : parseUnary m x = none) (rest : List (List Char)) :
    parseLine (m :: x :: rest) = parseList m (x :: rest) := by
  unfold parseLine
  dsimp only
  rw [h]
  cases rest <;> rfl

theorem parseList_mnemonic (i : Instr) (ws : List (List Char)) : parseList (mnemonicOf i).toList ws = none := by
  cases i <;> (dsimp only [mnemonicOf]; rfl)

theorem parseMoreBytes_commaWords (h : NumberTexts ws bs) : parseMoreBytes (commaWords ws) = some bs := by
  induction h with
  | nil => rfl
  | @cons w b ws bs hw _ ih =>
    change parseMoreBytes ([','] :: w :: commaWords ws) = _
    rw [parseMoreBytes, hw.parseByte, ih]
    rfl

theorem parseBytes_list (hw : NumberText w b.toNat) (hws : NumberTexts ws bs) :
    parseBytes (w :: commaWords ws) = some (b, bs) := by
  rw [parseBytes, hw.parseByte, parseMoreBytes_commaWords hws]

theorem NumberTexts.isWord (h : NumberTexts ws bs) : ∀ v ∈ ws, IsWord v := by
  induction h with
  | nil => exact fun _ hv => absurd hv List.not_mem_nil
  | cons hw _ ih => exact List.forall_mem_cons.2 ⟨hw.isWord, ih⟩

theorem parseLine_crcBytes (hw : NumberText w b.toNat) (hws : NumberTexts ws bs) :
    parseLine ("CRC_BYTES".toList :: w :: commaWords ws) = some (.crcBytes b bs) :=
  (parseLine_of_parseUnary_eq_none rfl _).trans (congrArg (Option.map _) (parseBytes_list hw hws))

theorem parseLine_scanBytes (hw : NumberText w b.toNat) (hws : NumberTexts ws bs) :
    parseLine ("SCAN_BYTES".toList :: w :: commaWords ws) = some (.scanBytes b bs) :=
  (parseLine_of_parseUnary_eq_none rfl _).trans (congrArg (Option.map _) (parseBytes_list hw hws))

/-! ### The line of a command -/

theorem numberText_byteText (b : Byte) : NumberText (byteText b) b.toNat := by
  refine ⟨[b.extractLsb' 4 4, b.extractLsb' 0 4], List.cons_ne_nil _ _, .inl ⟨rfl, ?_⟩⟩
  have := b.isLt
  simp only [numberValue, List.foldl_cons, List.foldl_nil, BitVec.extractLsb'_toNat, Nat.shiftRight_eq_div_pow]
  omega

theorem numberText_halfText (h : Half) : NumberText (halfText h) h.toNat := by
  refine ⟨[h.extractLsb' 12 4, h.extractLsb' 8 4, h.extractLsb' 4 4, h.extractLsb' 0 4], List.cons_ne_nil _ _,
    .inl ⟨rfl, ?_⟩⟩
  have := h.isLt
  simp only [numberValue, List.foldl_cons, List.foldl_nil, BitVec.extractLsb'_toNat, Nat.shiftRight_eq_div_pow]
  omega

/-- In forms B and H the line is the mnemonic and a text of the operand. -/
theorem lineOf_operand (hi : formOf i = .B ∨ formOf i = .H) :
    ∃ num, lineOf i = [(mnemonicOf i).toList, num] ∧ NumberText num (immOf i).toNat := by
  cases i with
  | nop => rcases hi with hi | hi <;> cases hi
  | crcInit b | crcByte b | scanByte b => exact ⟨byteText b, rfl, (pairBytes_zero_toNat b).symm ▸ numberText_byteText b⟩
  | setSync h | scanStart h | payloadRead h | regRead h => exact ⟨halfText h, rfl, numberText_halfText h⟩

theorem parseLine_lineOf (i : Instr) : parseLine (lineOf i) = some (.command i) := by
  cases hf : formOf i with
  | N => rw [eq_nop_of_formN hf]; rfl
  | B =>
    obtain ⟨num, hline, hnum⟩ := lineOf_operand (.inl hf)
    rw [hline, parseLine_of_parseUnary (parseUnary_number (.inl hf) hnum)]
  | H =>
    obtain ⟨num, hline, hnum⟩ := lineOf_operand (.inr hf)
    rw [hline, parseLine_of_parseUnary (parseUnary_number (.inr hf) hnum)]

/-- Settles O53: a line of two words is its mnemonic's command on the number, where the number is in range. -/
theorem assemblerLinesEncodeTheirCommands : Obligations.AssemblerLinesEncodeTheirCommands := by
  refine ⟨fun i => ?_, fun r => parseLine_of_parseUnary (parseUnary_regName r), fun i num n hnum hi => ?_,
    rfl, rfl, rfl, fun _ _ => rfl, fun _ _ => rfl⟩
  · rw [parseLine_lineOf]
    rfl
  · rw [parseLine_of_parseUnary_eq_none (parseUnary_outOfRange hnum hi), parseList_mnemonic]

/-- Settles O54: each kind of line splits into its words and these parse to its commands. -/
theorem assemblerTextGivesItsWords : Obligations.AssemblerTextGivesItsWords := by
  refine ⟨fun line i tail htail hi hl => ?formN, fun line i num tail htail hi hnum hl => ⟨?operand, rfl⟩,
    fun line r tail htail hl => ?register, fun line tail htail => ⟨fun hl => ?seed, fun hl => ?read, fun hl => ?status⟩,
    fun line nums bs tail htail hne hnums => ?lists, rfl, rfl⟩
  case formN =>
    obtain rfl := eq_nop_of_formN hi
    exact assembleLine_bare (l := .command .nop) (isWord_mnemonic .nop) htail rfl hl
  case operand =>
    exact assembleLine_unary (isWord_mnemonic i) hnum.isWord htail
      (parseLine_of_parseUnary (parseUnary_number hi hnum)) hl
  case register =>
    exact assembleLine_unary (isWord_mnemonic (.regRead 0)) (isWord_regName r) htail
      (parseLine_of_parseUnary (parseUnary_regName r)) hl
  case seed => exact assembleLine_bare (l := .crcSeed) (isWord_pseudo (by decide)) htail rfl hl
  case read => exact assembleLine_bare (l := .crcRead) (isWord_pseudo (by decide)) htail rfl hl
  case status => exact assembleLine_bare (l := .scanStatus) (isWord_pseudo (by decide)) htail rfl hl
  case lists =>
    cases hnums with
    | nil => exact absurd rfl hne
    | cons hw hws =>
      have hwords := NumberTexts.isWord hws
      constructor
      · intro hl
        rw [assembleLine_list (isWord_pseudo (by decide)) hw.isWord hwords htail (parseLine_crcBytes hw hws) hl]
        exact congrArg some List.map_map
      · intro hl
        rw [assembleLine_list (isWord_pseudo (by decide)) hw.isWord hwords htail (parseLine_scanBytes hw hws) hl]
        exact congrArg some List.map_map

end Sys2Proof.Machine
end

section
/-! SUPPORT. The checksum step as eight iterations of the 8-bit register, a linear and injective map on bytes
(40_checksum.md R103, R106), and checksums by any realisation of the step (R107, R109). -/

namespace Sys2Proof.Machine

/-! ### The 16-bit accumulator is the 8-bit register over a zero low byte -/

theorem setWidth_shiftLeft_eq_pairBytes (x : Byte) : x.setWidth 16 <<< 8 = pairBytes x 0 := by
  apply BitVec.eq_of_getLsbD_eq
  intro i hi
  rw [pairBytes_getLsbD]
  split
  · next h => simp [h]
  · next h => simp [hi, h]

theorem setWidth_shiftRight_eq_hiByte (h : Half) : (h >>> 8).setWidth 8 = hiByte h := by
  apply BitVec.eq_of_getLsbD_eq
  intro i hi
  simp [hiByte, hi]

theorem pairBytes_zero_xor (x y : Byte) : pairBytes (x ^^^ y) 0 = pairBytes x 0 ^^^ pairBytes y 0 :=
  (BitVec.xor_append (x₁ := x) (y₁ := 0) (x₂ := y) (y₂ := 0)).symm

theorem pairBytes_zero_shiftLeft (c : Byte) : pairBytes c 0 <<< 1 = pairBytes (c <<< 1) 0 := by
  apply BitVec.eq_of_toNat_eq
  simp only [BitVec.toNat_shiftLeft, pairBytes_toNat, Nat.shiftLeft_eq, show (0 : Byte).toNat = 0 from rfl]
  omega

/-- The accumulator's test of bit 15 is a test of bit 7 of its high byte. -/
theorem pairBytes_and_topBit (c : Byte) : pairBytes c 0 &&& 0x8000 ≠ 0 ↔ c.getLsbD 7 = true := by
  rw [show (0x8000 : Half) = BitVec.twoPow 16 15 from rfl, BitVec.and_twoPow, pairBytes_getLsbD]
  simp

/-- `0x8380` is the polynomial `0x107` seven places up (R106): after the shift it leaves `0x07` in the high byte. -/
theorem crcIteration_pairBytes (c : Byte) : crcIteration (pairBytes c 0) = pairBytes (crcRegIteration c) 0 := by
  rw [crcRegIteration, pairBytes_zero_xor, ← pairBytes_zero_shiftLeft, crcIteration]
  by_cases top : c.getLsbD 7 = true
  · rw [if_pos ((pairBytes_and_topBit c).2 top), if_pos top, BitVec.shiftLeft_xor_distrib]
    rfl
  · rw [if_neg (mt (pairBytes_and_topBit c).1 top), if_neg top]
    exact BitVec.xor_zero.symm

theorem repeatTimes_eq_iterate {α : Type} (n : Nat) (f : α → α) (a : α) : repeatTimes n f a = f^[n] a := by
  induction n generalizing a with
  | zero => rfl
  | succ n ih => exact ih (f a)

theorem crc8StepReg_eq_iterate (r b : Byte) : crc8StepReg r b = crcRegIteration^[8] (r ^^^ b) :=
  repeatTimes_eq_iterate 8 crcRegIteration _

/-- R106, by `crcIteration_pairBytes` eight times. -/
theorem crc8Step_eq_iterate (r b : Byte) : crc8Step r b = crcRegIteration^[8] (r ^^^ b) := by
  have iterations : pairBytes (crcRegIteration^[8] (r ^^^ b)) 0 = crcIteration^[8] (pairBytes (r ^^^ b) 0) :=
    Function.Semiconj.iterate_right (f := (pairBytes · 0)) (fun c => (crcIteration_pairBytes c).symm) 8 _
  rw [crc8Step, setWidth_shiftLeft_eq_pairBytes, repeatTimes_eq_iterate, ← iterations, setWidth_shiftRight_eq_hiByte,
    hiByte_pairBytes]

theorem crc8Step_eq_crc8StepReg (r b : Byte) : crc8Step r b = crc8StepReg r b :=
  (crc8Step_eq_iterate r b).trans (crc8StepReg_eq_iterate r b).symm

/-- The table's entry `T[x]` (R103). -/
theorem crc8Step_zero_eq_iterate (x : Byte) : crc8Step 0 x = crcRegIteration^[8] x :=
  (crc8Step_eq_iterate 0 x).trans (congrArg _ BitVec.zero_xor)

theorem crc8Step_eq_crc8Step_zero (r b : Byte) : crc8Step r b = crc8Step 0 (r ^^^ b) :=
  (crc8Step_eq_iterate r b).trans (crc8Step_zero_eq_iterate _).symm

/-! ### The forms of the checksum -/

/-- A realisation that agrees on every step agrees on every sequence (R107). -/
theorem checksumBy_eq_checksum {step : Byte → Byte → Byte} (h : ∀ r b, step r b = crc8Step r b) (seed : Byte)
    (data : List Byte) : checksumBy step seed data = checksum seed data := by
  induction data generalizing seed with
  | nil => rfl
  | cons b rest ih => rw [checksumBy, checksum, h, ih]

/-- Settles O17: one iteration on a zero low byte is one of the register's, and the step is eight of them. -/
theorem checksumStepIsTheEightBitRegister : Obligations.ChecksumStepIsTheEightBitRegister :=
  ⟨crc8Step_eq_crc8Step_zero, crcIteration_pairBytes, crc8Step_eq_crc8StepReg,
    checksumBy_eq_checksum fun r b => (crc8Step_eq_crc8StepReg r b).symm⟩

theorem crcTable_length : crcTable.length = 256 := by decide +kernel

/-- The 256 entries transcribed from R107, each evaluated from the algorithm of R100. -/
theorem crcTable_getElem? (x : Byte) : crcTable[x.toNat]? = some (crc8Step 0 x) := by
  revert x
  decide +kernel

theorem crc8StepTable_eq_crc8Step (r b : Byte) : crc8StepTable r b = crc8Step r b := by
  rw [crc8StepTable, List.getD_eq_getElem?_getD, crcTable_getElem?, Option.getD_some, ← crc8Step_eq_crc8Step_zero]

/-- Settles O18: the table's entries are evaluated, the step reads the entry of `r ^ b`, and sequences follow. -/
theorem checksumTableIsTheAlgorithm : Obligations.ChecksumTableIsTheAlgorithm :=
  ⟨crcTable_length, crcTable_getElem?, crc8StepTable_eq_crc8Step, checksumBy_eq_checksum crc8StepTable_eq_crc8Step⟩

/-! ### Linearity and injectivity of the step -/

theorem crcRegIteration_xor (x y : Byte) : crcRegIteration (x ^^^ y) = crcRegIteration x ^^^ crcRegIteration y := by
  have feedback : ∀ p q : Bool, (if p ^^ q then (0x07 : Byte) else 0x00) =
      (if p then 0x07 else 0x00) ^^^ (if q then 0x07 else 0x00) := by decide
  rw [crcRegIteration, BitVec.getLsbD_xor, feedback, BitVec.shiftLeft_xor_distrib]
  unfold crcRegIteration
  ac_rfl

/-- The bit shifted out comes back as bit 0, the polynomial's constant term. -/
theorem crcRegIteration_getLsbD_zero (c : Byte) : (crcRegIteration c).getLsbD 0 = c.getLsbD 7 := by
  rw [crcRegIteration]
  cases c.getLsbD 7 <;> simp

/-- Bit 0 of the result tells whether `0x07` went in; without it the other bits are shifted back. -/
theorem crcRegIteration_injective : Function.Injective crcRegIteration := by
  intro x y h
  have top : x.getLsbD 7 = y.getLsbD 7 := by
    rw [← crcRegIteration_getLsbD_zero, h, crcRegIteration_getLsbD_zero]
  rw [crcRegIteration, crcRegIteration, top, BitVec.xor_left_inj] at h
  apply BitVec.eq_of_getLsbD_eq
  intro i hi
  obtain rfl | hlt : i = 7 ∨ i < 7 := by omega
  · exact top
  · have shifted := congrArg (·.getLsbD (i + 1)) h
    grind

theorem crc8Step_zero_injective : Function.Injective (crc8Step 0) := by
  rw [funext crc8Step_zero_eq_iterate]
  exact crcRegIteration_injective.iterate 8

theorem crc8Step_zero_xor (x y : Byte) : crc8Step 0 (x ^^^ y) = crc8Step 0 x ^^^ crc8Step 0 y := by
  simp only [crc8Step_zero_eq_iterate]
  exact Function.Semiconj₂.iterate crcRegIteration_xor 8 x y

theorem crc8Step_zero_surjective : Function.Surjective (crc8Step 0) :=
  Finite.surjective_of_injective crc8Step_zero_injective

theorem crc8Step_self (r : Byte) : crc8Step r r = 0x00 := by
  rw [crc8Step_eq_crc8Step_zero, BitVec.xor_self]
  rfl

theorem crc8Step_injective_right {r b b' : Byte} (h : crc8Step r b = crc8Step r b') : b = b' := by
  rw [crc8Step_eq_crc8Step_zero r b, crc8Step_eq_crc8Step_zero r b'] at h
  exact (BitVec.xor_right_inj r).1 (crc8Step_zero_injective h)

theorem crc8Step_injective_left {r r' b : Byte} (h : crc8Step r b = crc8Step r' b) : r = r' := by
  rw [crc8Step_eq_crc8Step_zero r b, crc8Step_eq_crc8Step_zero r' b] at h
  exact (BitVec.xor_left_inj b).1 (crc8Step_zero_injective h)

/-! ### Checksums of sequences -/

theorem checksum_cons (seed b : Byte) (rest : List Byte) :
    checksum seed (b :: rest) = checksum (crc8Step seed b) rest := rfl

theorem checksum_append (seed : Byte) (a c : List Byte) :
    checksum seed (a ++ c) = checksum (checksum seed a) c := by
  induction a generalizing seed with
  | nil => rfl
  | cons b rest ih => exact ih _

/-- A sequence followed by its own checksum checksums to 0 (R108, law 3). -/
theorem checksum_append_checksum (seed : Byte) (d : List Byte) : checksum seed (d ++ [checksum seed d]) = 0x00 := by
  rw [checksum_concat, crc8Step_self]

theorem checksum_buildFrame (m0 m1 r0 r1 : Byte) (p : List Byte) : checksum 0xFF (buildFrame m0 m1 r0 r1 p) = 0x00 :=
  checksum_append_checksum Config.seed (frameBody m0 m1 r0 r1 p)

/-- Distinct running values stay distinct over the bytes that follow (R108, law 5). -/
theorem checksum_seed_injective (data : List Byte) {seed seed' : Byte} (h : checksum seed data = checksum seed' data) :
    seed = seed' := by
  induction data generalizing seed seed' with
  | nil => exact h
  | cons b rest ih => exact crc8Step_injective_left (ih h)

theorem checksum_ne_of_byte_ne {b b' : Byte} (hne : b ≠ b') (seed : Byte) (a c : List Byte) :
    checksum seed (a ++ b :: c) ≠ checksum seed (a ++ b' :: c) := by
  simp only [checksum_append, checksum_cons]
  exact fun h => hne (crc8Step_injective_right (checksum_seed_injective c h))

end Sys2Proof.Machine
end

section
/-! SUPPORT. The checksum unit's two commands (40_checksum.md R104, R105): what they answer, their words, and what a sequence
of them computes. -/

namespace Sys2Proof.Machine

variable {s : State} {rest : List HostInput} {seed : Byte} {d : List Byte}

/-- A word whose opcode takes one byte is the command on `IMM[7:0]` where `IMM[15:8]` is 0, and illegal elsewhere (R75). -/
theorem acceptWord_formB {op : Byte} {k : Byte → Instr} (hop : ∀ imm, decodeFields op imm = decodeB k imm) (imm : Half)
    (s : State) : acceptWord (op ++ imm) s =
      if hiByte imm = 0 then exec (k (loByte imm)) s else .next (raiseError .errIllegal s) := by
  have hdecode : decode (op ++ imm) = _ := (decode_fields op imm).trans ((hop imm).trans (decodeB_eq k imm))
  split
  · next himm => exact acceptWord_ok (hdecode.trans (if_neg (not_not.2 himm))) s
  · next himm => exact acceptWord_error (hdecode.trans (if_pos himm)) s

/-- Settles O15. -/
theorem crcInitSetsTheSeed : Obligations.CrcInitSetsTheSeed :=
  ⟨exec_crcInit, acceptWord_formB fun _ => rfl⟩

/-- A step on the word of a command runs it. -/
theorem step_encode {i : Instr} (h : s.input = .command (encode i) :: rest) :
    step s = exec i { s with input := rest } :=
  stepRunsTheDecodedCommand.1 s (encode i) rest i h (decode_encode i)

/-- `CRC_BYTE` for each byte of `d` folds `d` into `CRC`; the response before them is already the one they answer. -/
theorem runFor_crcBytes (hinput : s.input = commandInputs (d.map .crcByte) ++ rest) (hrsp : s.rsp = some ⟨.ok, 0⟩) :
    runFor d.length s = .next { s with crc := checksum s.crc d, input := rest } := by
  induction d generalizing s with
  | nil =>
    obtain rfl : s.input = rest := hinput
    rfl
  | cons b d ih =>
    have hstep := (step_encode hinput).trans (exec_crcByte b _)
    rw [List.length_cons, runFor_step hstep, ih rfl rfl, checksum_cons]
    simp [respond, hrsp]

theorem runFor_crcInit_crcBytes (hinput : s.input = commandInputs (.crcInit seed :: d.map .crcByte) ++ rest) :
    runFor (d.length + 1) s = .next { s with crc := checksum seed d, rsp := some ⟨.ok, 0⟩, input := rest } := by
  have hstep := (step_encode hinput).trans (exec_crcInit seed _)
  rw [runFor_step hstep, runFor_crcBytes rfl rfl]
  rfl

/-- Settles O16: a byte equal to `CRC` cancels it, and a sequence folds byte by byte. -/
theorem crcByteFoldsOneByte : Obligations.CrcByteFoldsOneByte := by
  refine ⟨fun b s => ⟨exec_crcByte b s, ?cancels⟩, acceptWord_formB fun _ => rfl, fun _ _ _ _ => runFor_crcInit_crcBytes⟩
  case cancels =>
    rintro rfl
    exact ⟨_, exec_crcByte s.crc s, crc8Step_self s.crc⟩

/-- Settles O19: the laws of the step, carried to sequences by induction; a run computes `checksum` whatever it starts from. -/
theorem checksumLaws : Obligations.ChecksumLaws := by
  refine ⟨fun _ => rfl, checksum_append, crc8Step_self, checksum_append_checksum, checksum_buildFrame, crc8Step_zero_xor,
    ?singleBits, crc8Step_zero_surjective, fun _ _ _ => crc8Step_injective_right, fun _ _ _ => crc8Step_injective_left,
    fun seed a b b' c hne => checksum_ne_of_byte_ne hne seed a c, fun d rest rest' s s' hs hs' => ?deterministic⟩
  case singleBits => decide +kernel
  case deterministic => exact ⟨_, _, runFor_crcInit_crcBytes hs, runFor_crcInit_crcBytes hs', rfl, rfl⟩

end Sys2Proof.Machine
end

section
/-! SUPPORT. The scanner's commands (41_scanner.md R130 to R139): the restarts, one byte in each scanner state, and what leaves
a final state. -/

namespace Sys2Proof.Machine

variable {b : Byte} {s t : State} {buf : List Byte}

/-! ### The restarts -/

/-- Without a Found frame no payload is exposed (42_host_access.md R161). -/
theorem noPayload_of_st_ne (h : s.st ≠ .doneFound) : NoPayload s := by
  intro k
  rw [answer_payloadRead, if_neg fun found => h found.1]

/-- Settles O20: the update is the list of R130, and a scan in HUNT exposes no payload. -/
theorem setSyncLoadsTheMarkerAndRestarts : Obligations.SetSyncLoadsTheMarkerAndRestarts := by
  intro h s
  refine ⟨exec_setSync h s, acceptWord_ok (decode_encode (.setSync h)) s, fun t ht => ?_⟩
  cases (exec_setSync h s).symm.trans ht
  exact ⟨rfl, rfl, noPayload_of_st_ne (s := respond ..) nofun⟩

/-- Settles O21: the update is the list of R131, and a scan in HUNT exposes no payload. -/
theorem scanStartBeginsANewScan : Obligations.ScanStartBeginsANewScan := by
  intro h s
  refine ⟨exec_scanStart h s, acceptWord_ok (decode_encode (.scanStart h)) s, fun t ht => ?_⟩
  cases (exec_scanStart h s).symm.trans ht
  exact noPayload_of_st_ne nofun

/-! ### One byte, by scanner state -/

/-- Settles O22. -/
theorem scanByteInHunt : Obligations.ScanByteInHunt :=
  fun b _ hst => exec_scanByte_hunt hst b

/-- Settles O23: the marker's checksum is two steps from the seed. -/
theorem scanByteInSync1 : Obligations.ScanByteInSync1 :=
  fun b _ hst => exec_scanByte_sync1 hst b

/-- Settles O26. -/
theorem scanByteInCheck : Obligations.ScanByteInCheck :=
  fun b _ hst => exec_scanByte_check hst b

/-- Settles O24: each `HIDX` is one branch, the last one two, by whether the length is 0. -/
theorem scanByteInHdr : Obligations.ScanByteInHdr := by
  intro b s hst
  refine ⟨fun hi => ?reservedHigh, fun hi => ?reservedLow, fun hi => ?lengthHigh, fun hi => ?lengthLow⟩
  case reservedHigh => rw [(ByteStep.hdrReservedHigh hst hi).exec_eq, hi]; rfl
  case reservedLow => rw [(ByteStep.hdrReservedLow hst hi).exec_eq, hi]; rfl
  case lengthHigh => rw [(ByteStep.hdrLengthHigh hst hi).exec_eq, hi]; rfl
  case lengthLow =>
    have hzero : pairBytes (hiByte s.flen) b = 0 ↔ (hiByte s.flen).toNat * 256 + b.toNat = 0 := by
      rw [← pairBytes_toNat, BitVec.toNat_eq]
      rfl
    by_cases hl : pairBytes (hiByte s.flen) b = 0
    · rw [(ByteStep.hdrLengthZero hst hi hl).exec_eq, hi, if_pos (hzero.1 hl)]; rfl
    · rw [(ByteStep.hdrLengthPositive hst hi hl).exec_eq, hi, if_neg (mt hzero.2 hl)]; rfl

/-- While a payload byte is awaited `PCNT` does not overflow (R136). -/
theorem pcnt_succ_toNat (hp : s.pcnt.toNat < s.flen.toNat) : (s.pcnt + 1).toNat = s.pcnt.toNat + 1 := by
  bv_omega

theorem pcnt_succ_eq_flen (hp : s.pcnt.toNat < s.flen.toNat) :
    s.pcnt + 1 = s.flen ↔ s.pcnt.toNat + 1 = s.flen.toNat := by
  rw [BitVec.toNat_eq, pcnt_succ_toNat hp]

theorem byteExists_pcnt (hp : s.pcnt.toNat < s.flen.toNat) : byteExists s.pcnt.toNat = true := by
  have := s.flen.isLt
  exact decide_eq_true (show s.pcnt.toNat < 65535 by omega)

/-- Settles O25: the byte is written at index `PCNT`, which `PCNT < FLEN` keeps below 65535. -/
theorem scanByteInPayload : Obligations.ScanByteInPayload := by
  intro b s hst hp hwf
  have exists_pcnt := byteExists_pcnt hp
  refine ⟨_, exec_scanByte_payload hst hp b, ?state, pcnt_succ_toNat hp, Nat.le_of_lt_succ (of_decide_eq_true exists_pcnt),
    Memory.read_write_same _ _ hwf, fun a => Memory.read_write_other b, Memory.write_wf hwf exists_pcnt⟩
  case state =>
    simp only [afterPayload, pcnt_succ_eq_flen hp, hst]
    rfl

/-! ### Completion and the transition table -/

theorem isFinal_iff {st : ScanState} : isFinal st = true ↔ st = .doneFound ∨ st = .doneMismatch := by
  cases st <;> decide

/-- In every state the invariant allows one of the branches is taken. -/
theorem StateInv.exists_byteStep (h : StateInv s) (b : Byte) : ∃ t, ByteStep b s t := by
  cases hst : s.st with
  | hunt => exact ⟨_, byteStep_scanHunt hst⟩
  | sync1 => exact ⟨_, byteStep_scanSync1 hst⟩
  | hdr => exact ⟨_, byteStep_scanHdr hst⟩
  | payload => exact ⟨_, byteStep_afterPayload hst (byteExists_pcnt (h.payload_open hst))⟩
  | check => exact ⟨_, byteStep_scanCheck hst⟩
  | doneFound | doneMismatch => exact ⟨_, .final (by rw [hst]; rfl)⟩

/-- An open state consumes the byte, a final one only answers (R132, R138). -/
theorem ByteStep.open_or_final (step : ByteStep b s t) :
    (isFinal s.st = false ∧ t.pos = s.pos + 1 ∧ t.rsp = some ⟨.ok, 0⟩) ∨
    (isFinal s.st = true ∧ t = respond .ignored 0 s) := by
  cases step with
  | final hst => exact .inr ⟨hst, rfl⟩
  | huntFirst hst | huntOther hst | sync1Second hst | sync1First hst | sync1Other hst | hdrReservedHigh hst
  | hdrReservedLow hst | hdrLengthHigh hst | hdrLengthZero hst | hdrLengthPositive hst | hdrOutside hst
  | payloadLast hst | payloadMore hst | checkMatch hst | checkMismatch hst => exact .inl ⟨by rw [hst]; rfl, rfl, rfl⟩

/-- Settles O28: some branch is taken, and no branch touches the registers named. -/
theorem scanByteCompletesOnEveryByte : Obligations.ScanByteCompletesOnEveryByte := by
  refine ⟨fun b s h => ?_, acceptWord_formB fun _ => rfl⟩
  obtain ⟨t, step⟩ := h.exists_byteStep b
  obtain ⟨hcrc, hsync, hfbase, hinput⟩ := step.frame
  refine ⟨t, step.exec_eq, hcrc, hsync, hfbase, hinput, step.open_or_final.imp_right ?_⟩
  rintro ⟨hfinal, rfl⟩
  exact ⟨hfinal, rfl, rfl⟩

/-- Settles O29: each branch is a row, and no other row's condition holds with the branch's. -/
theorem scanByteFollowsTheTransitionTable : Obligations.ScanByteFollowsTheTransitionTable := by
  intro b s h
  obtain ⟨t, step⟩ := h.exists_byteStep b
  refine ⟨t, step.exec_eq, ?_⟩
  have hidx_hunt := h.hidx_hunt
  have hidx_sync1 := h.hidx_sync1
  have hidx_frame := h.hidx_frame
  cases step with
  | huntFirst hst h0 => simp [hst, h0]
  | huntOther hst h0 => simp [hst, h0, hidx_hunt]
  | sync1Second hst h1 => simp [hst, h1]
  | sync1First hst h1 h0 => simp [hst, ← h0, h1, hidx_sync1]
  | sync1Other hst h1 h0 => simp [hst, h1, h0]
  | hdrReservedHigh hst hi | hdrReservedLow hst hi | hdrLengthHigh hst hi => simp [hst, hi]
  | hdrLengthZero hst hi hl => simp [hst, hi, hl]
  | hdrLengthPositive hst hi hl => simpa [hst, hi] using hl
  | hdrOutside hst hi =>
    obtain ⟨lo, hi5⟩ := h.hidx_hdr hst
    omega
  | payloadLast hst hp hl =>
    have := (pcnt_succ_eq_flen (h.payload_open hst)).1 hl
    simp [hst, this, hidx_frame]
  | payloadMore hst hp hl =>
    have := mt (pcnt_succ_eq_flen (h.payload_open hst)).2 hl
    simp [hst, this, hidx_frame]
  | checkMatch hst hc => simp [hst, hc, hidx_frame]
  | checkMismatch hst hc => simp [hst, hc, hidx_frame]
  | final hst => obtain hst | hst := isFinal_iff.1 hst <;> simp [hst, hidx_frame, isFinal]

/-! ### Final states -/

/-- Of the commands only the two restarts leave a final state (R138). -/
theorem exec_leaves_final {i : Instr} (hfinal : isFinal s.st = true) (hx : exec i s = .next t) (hne : t.st ≠ s.st) :
    (∃ a, i = .scanStart a) ∨ ∃ m, i = .setSync m := by
  obtain ⟨b, -, step⟩ | ⟨m, hi, -⟩ | ⟨a, hi, -⟩ | ⟨b, c, -, rfl⟩ | ⟨-, c, d, rfl⟩ := exec_cases hx
  · obtain ⟨hopen, -⟩ | ⟨-, rfl⟩ := step.open_or_final
    · exact absurd (hfinal.symm.trans hopen) nofun
    · exact absurd rfl hne
  · exact .inr ⟨m, hi⟩
  · exact .inl ⟨a, hi⟩
  · exact absurd rfl hne
  · exact absurd rfl hne

/-- `POS` in a final state is the offset just after the frame (R138). -/
theorem Tracks.pos_final (h : Tracks s buf) (hst : s.st = .doneFound ∨ s.st = .doneMismatch) :
    s.pos = s.fstart + 6 + s.flen.setWidth 32 + 1 := by
  obtain ⟨pre, hdr, pay, frame, hpay, hpos⟩ : ∃ pre hdr pay, FrameSoFar s pre hdr pay ∧ pay.length = s.flen.toNat ∧
      s.pos = BitVec.ofNat 32 (pre.length + 6 + pay.length + 1) := by
    obtain hst | hst := hst
    · obtain ⟨pre, hdr, pay, more, -, frame, -, hpay, -, hpos⟩ := (tracks_doneFound hst).1 h
      exact ⟨pre, hdr, pay, frame, hpay, hpos⟩
    · obtain ⟨pre, hdr, pay, more, -, frame, -, hpay, -, hpos⟩ := (tracks_doneMismatch hst).1 h
      exact ⟨pre, hdr, pay, frame, hpay, hpos⟩
  rw [hpos, frame.fstart, ← BitVec.ofNat_toNat, ← hpay]
  simp only [BitVec.ofNat_add]
  rfl

/-- Settles O27. -/
theorem finalStatesIgnoreBytes : Obligations.FinalStatesIgnoreBytes := by
  refine ⟨fun b s hst => exec_scanByte_final (isFinal_iff.2 hst) b, fun s t x rest hst hinput hs hne => ?_,
    fun inputs n t hrun hst => (tracks_of_run hrun).pos_final hst⟩
  obtain ⟨c, rfl, -⟩ | ⟨w, e, -, -, rfl⟩ | ⟨w, i, rfl, hd, hx⟩ := step_cons_cases hinput hs
  · exact .inl ⟨c, rfl⟩
  · exact absurd rfl hne
  · rw [← encode_of_decode hd]
    obtain ⟨a, rfl⟩ | ⟨m, rfl⟩ := exec_leaves_final (s := { s with input := rest }) (isFinal_iff.2 hst) hx hne
    · exact .inr (.inl ⟨a, rfl⟩)
    · exact .inr (.inr ⟨m, rfl⟩)

end Sys2Proof.Machine
end

section
/-! SUPPORT. The first marker of a buffer and its first complete frame, as the scan contract reads them (41_scanner.md R120, R123
to R127; 30_encoding.md R80). -/

namespace Sys2Proof.Machine

variable {m0 m1 : Byte} {buf pre hdr pay : List Byte} {n : Nat}

/-! ### The least offset of the marker -/

theorem markerAt_zero {a : Byte} : markerAt m0 m1 (a :: buf) 0 ↔ a = m0 ∧ buf.head? = some m1 := by
  rw [markerAt, List.getElem?_cons_zero, List.getElem?_cons_succ, ← List.head?_eq_getElem?, Option.some.injEq]

theorem markerAt_append_right (pre buf : List Byte) (j : Nat) :
    markerAt m0 m1 (pre ++ buf) (pre.length + j) ↔ markerAt m0 m1 buf j := by
  simp [markerAt, List.getElem?_append_right, Nat.add_assoc]

theorem findMarker_eq_none_iff : findMarker m0 m1 buf = none ↔ ∀ j, ¬ markerAt m0 m1 buf j := by
  induction buf with
  | nil => simp [findMarker, markerAt]
  | cons a rest ih =>
    rw [findMarker_cons]
    split
    · next hm => exact iff_of_false nofun fun h => h 0 (markerAt_zero.2 hm)
    · next hm =>
      rw [Option.map_eq_none_iff, ih, ← Nat.and_forall_add_one (p := (¬ markerAt m0 m1 (a :: rest) ·)), markerAt_zero,
        and_iff_right hm]
      rfl

/-- No marker stands before the one that is found. -/
theorem not_markerAt_of_lt_findMarker (h : findMarker m0 m1 buf = some n) {j : Nat} (hj : j < n) :
    ¬ markerAt m0 m1 buf j := by
  induction buf generalizing n j with
  | nil => cases h
  | cons a rest ih =>
    rw [findMarker_cons] at h
    split at h
    · cases h
      exact absurd hj (Nat.not_lt_zero j)
    · next hm =>
      obtain ⟨k, hk, rfl⟩ := Option.map_eq_some_iff.1 h
      cases j with
      | zero => exact mt markerAt_zero.1 hm
      | succ j => exact ih hk (Nat.lt_of_succ_lt_succ hj)

theorem findMarker_eq_some_iff :
    findMarker m0 m1 buf = some n ↔ markerAt m0 m1 buf n ∧ ∀ j, j < n → ¬ markerAt m0 m1 buf j := by
  refine ⟨fun h => ⟨markerAt_of_findMarker h, fun j => not_markerAt_of_lt_findMarker h⟩, fun ⟨here, before⟩ => ?_⟩
  cases hk : findMarker m0 m1 buf with
  | none => exact absurd here (findMarker_eq_none_iff.1 hk n)
  | some k =>
    obtain hlt | rfl | hlt := Nat.lt_trichotomy k n
    · exact absurd (markerAt_of_findMarker hk) (before k hlt)
    · rfl
    · exact absurd here (not_markerAt_of_lt_findMarker hk hlt)

theorem findMarker_eq_zero_iff : findMarker m0 m1 buf = some 0 ↔ markerAt m0 m1 buf 0 := by
  rw [findMarker_eq_some_iff]
  exact and_iff_left nofun

/-- A marker found just after `pre` stands at the start of what follows. -/
theorem findMarker_eq_zero_of_append (h : findMarker m0 m1 (pre ++ buf) = some pre.length) :
    findMarker m0 m1 buf = some 0 :=
  findMarker_eq_zero_iff.2 ((markerAt_append_right pre buf 0).1 (markerAt_of_findMarker h))

/-- The part of a buffer that holds the first marker finds it at the same offset. -/
theorem findMarker_of_append {more : List Byte} (h : findMarker m0 m1 (buf ++ more) = some n) (hn : n + 1 < buf.length) :
    findMarker m0 m1 buf = some n := by
  obtain ⟨h0, h1⟩ := markerAt_of_findMarker h
  rw [List.getElem?_append_left (by omega)] at h0
  rw [List.getElem?_append_left hn] at h1
  cases hk : findMarker m0 m1 buf with
  | none => exact absurd ⟨h0, h1⟩ (findMarker_eq_none_iff.1 hk n)
  | some k => exact (findMarker_append_of_some hk more).symm.trans h

/-! ### The frame after the marker -/

theorem lengthField_append_right (pre buf : List Byte) : lengthField (pre ++ buf) pre.length = lengthField buf 0 := by
  simp only [lengthField, byteAt_append_right, Nat.zero_add]

theorem slice_append_right (pre buf : List Byte) (i j : Nat) :
    slice (pre ++ buf) (pre.length + i) (pre.length + j) = slice buf i j := by
  rw [slice, slice, List.drop_length_add_append, Nat.add_sub_add_left]

/-- Bytes before the marker enter nothing (R123); `start` is the slice that begins at the marker itself. -/
theorem scan_append_right (h : findMarker m0 m1 (pre ++ buf) = some pre.length) (a : Half) :
    scan (pre ++ buf) m0 m1 a = scan buf m0 m1 a := by
  have start := slice_append_right pre buf 0
  rw [scan_of_marker h, scan_of_marker (findMarker_eq_zero_of_append h)]
  simp only [lengthField_append_right, List.length_append, Nat.add_assoc, Nat.add_lt_add_iff_left, Nat.zero_add,
    byteAt_append_right, slice_append_right, Nat.add_zero] at start ⊢
  rw [start]

/-- Settles O47: the least offset by `findMarker_eq_some_iff`; the examples are evaluated. -/
theorem theFirstMarkerIsTheLeastOffset : Obligations.TheFirstMarkerIsTheLeastOffset :=
  fun _ _ _ => ⟨fun _ => findMarker_eq_some_iff, findMarker_eq_none_iff, fun _ a h => scan_append_right h a, rfl, rfl⟩

/-- After `pre` the first frame of a buffer begins, with header `hdr` and all of its payload `pay`. -/
structure CompleteFrame (m0 m1 : Byte) (pre hdr pay : List Byte) : Prop where
  first_marker : findMarker m0 m1 (pre ++ hdr) = some pre.length
  hdr_length : hdr.length = 6
  pay_length : pay.length = (pairBytes (hdr.getD 4 0) (hdr.getD 5 0)).toNat

theorem CompleteFrame.findMarker_eq (h : CompleteFrame m0 m1 pre hdr pay) (after : List Byte) :
    findMarker m0 m1 (pre ++ hdr ++ pay ++ after) = some pre.length := by
  rw [List.append_assoc]
  exact findMarker_append_of_some h.first_marker _

theorem CompleteFrame.lengthField_eq (h : CompleteFrame m0 m1 pre hdr pay) (after : List Byte) :
    lengthField (pre ++ hdr ++ pay ++ after) pre.length = pay.length := by
  rw [List.append_assoc, lengthField_frame pre h.hdr_length, h.pay_length]

/-- `scan` of a buffer whose first frame is complete compares the checksum byte `c` (R120, R126). -/
theorem CompleteFrame.scan_eq (h : CompleteFrame m0 m1 pre hdr pay) (c : Byte) (more : List Byte) (a : Half) :
    scan (pre ++ hdr ++ pay ++ c :: more) m0 m1 a =
      if checksum Config.seed (hdr ++ pay) = c then (.found a pay, .found) else (.notFound, .checksumMismatch) := by
  have hhdr := h.hdr_length
  have hlen : (pre ++ hdr ++ pay ++ c :: more).length = pre.length + 6 + pay.length + 1 + more.length := by
    simp only [List.length_append, List.length_cons]
    omega
  have payload : slice (pre ++ hdr ++ pay ++ c :: more) (pre.length + 6) (pre.length + 6 + pay.length) = pay := by
    have := slice_middle (pre ++ hdr) pay (c :: more)
    rwa [List.length_append, hhdr] at this
  rw [scan_of_marker (h.findMarker_eq _), h.lengthField_eq, hlen, if_neg (by omega), if_neg (by omega), slice_frame pre hhdr,
    byteAt_checksum pre hhdr, payload]

theorem exists_append_of_le_length (h : n ≤ buf.length) : ∃ front back, buf = front ++ back ∧ front.length = n :=
  ⟨buf.take n, buf.drop n, (List.take_append_drop n buf).symm, List.length_take_of_le h⟩

/-- A buffer that holds all bytes of its first frame is that frame, what precedes it, and what follows. -/
theorem exists_completeFrame (hm : findMarker m0 m1 buf = some n) (hlen : n + 6 + lengthField buf n + 1 ≤ buf.length) :
    ∃ pre hdr pay c more, buf = pre ++ hdr ++ pay ++ c :: more ∧ pre.length = n ∧ CompleteFrame m0 m1 pre hdr pay := by
  obtain ⟨pre, rest, rfl, rfl⟩ := exists_append_of_le_length (show n ≤ buf.length by omega)
  rw [List.length_append] at hlen
  obtain ⟨hdr, rest, rfl, hhdr⟩ := exists_append_of_le_length (show 6 ≤ rest.length by omega)
  rw [← List.append_assoc, lengthField_frame pre hhdr, List.length_append] at hlen
  obtain ⟨pay, rest, rfl, hpay⟩ := exists_append_of_le_length
    (show (pairBytes (hdr.getD 4 0) (hdr.getD 5 0)).toNat ≤ rest.length by omega)
  rw [List.length_append] at hlen
  obtain ⟨c, more, rfl⟩ := List.exists_cons_of_length_pos (l := rest) (by omega)
  refine ⟨pre, hdr, pay, c, more, by simp only [List.append_assoc], rfl, ?_, hhdr, hpay⟩
  rw [← List.append_assoc] at hm
  exact findMarker_of_append hm (by rw [List.length_append]; omega)

/-- `scan` of a buffer in which bytes of its first frame are missing (R120). -/
theorem scan_of_incomplete (hm : findMarker m0 m1 buf = some n) (hlen : buf.length < n + 6 + lengthField buf n + 1)
    (a : Half) : scan buf m0 m1 a = (.truncated, .frameTruncated) := by
  rw [scan_of_marker hm, if_pos hlen, ite_self]

/-- Settles O48: what follows the checksum byte enters no side of `CompleteFrame.scan_eq`. -/
theorem aCompleteFrameIsFinal : Obligations.ACompleteFrameIsFinal := by
  intro m0 m1 a buf more s hm hlen
  obtain ⟨pre, hdr, pay, c, rest, rfl, rfl, frame⟩ := exists_completeFrame hm hlen
  rw [List.append_assoc _ _ more, List.cons_append, frame.scan_eq, frame.scan_eq]
  split
  · exact ⟨rfl, .inl rfl⟩
  · exact ⟨rfl, .inr rfl⟩

/-! ### A built frame -/

variable {r0 r1 : Byte} {p : List Byte}

/-- The header of a built frame (30_encoding.md R80). -/
def builtHeader (m0 m1 r0 r1 : Byte) (p : List Byte) : List Byte :=
  [m0, m1, r0, r1, BitVec.ofNat 8 (p.length / 256), BitVec.ofNat 8 (p.length % 256)]

theorem buildFrame_eq (m0 m1 r0 r1 : Byte) (p : List Byte) : buildFrame m0 m1 r0 r1 p =
    [] ++ builtHeader m0 m1 r0 r1 p ++ p ++ checksum Config.seed (builtHeader m0 m1 r0 r1 p ++ p) :: [] := rfl

theorem buildFrame_length : (buildFrame m0 m1 r0 r1 p).length = 6 + p.length + 1 := by
  rw [buildFrame_eq]
  simp only [builtHeader, List.length_append, List.length_cons, List.length_nil]

/-- The two length bytes of a built frame are its payload's length. -/
theorem builtLength_toNat (hp : p.length ≤ 65535) :
    (pairBytes (BitVec.ofNat 8 (p.length / 256)) (BitVec.ofNat 8 (p.length % 256))).toNat = p.length := by
  rw [pairBytes_toNat, BitVec.toNat_ofNat, BitVec.toNat_ofNat]
  omega

theorem completeFrame_built (m0 m1 r0 r1 : Byte) (hp : p.length ≤ 65535) :
    CompleteFrame m0 m1 [] (builtHeader m0 m1 r0 r1 p) p where
  first_marker := findMarker_eq_zero_iff.2 ⟨rfl, rfl⟩
  hdr_length := rfl
  pay_length := (builtLength_toNat hp).symm

/-- Settles O49. -/
theorem builtFrameScansToItsPayload : Obligations.BuiltFrameScansToItsPayload := by
  intro m0 m1 r0 r1 p a hp
  rw [buildFrame_eq, (completeFrame_built m0 m1 r0 r1 hp).scan_eq, if_pos rfl]

theorem findMarker_buildFrame (m0 m1 r0 r1 : Byte) (p : List Byte) : findMarker m0 m1 (buildFrame m0 m1 r0 r1 p) = some 0 :=
  findMarker_eq_zero_iff.2 ⟨rfl, rfl⟩

theorem lengthField_buildFrame (hp : p.length ≤ 65535) : lengthField (buildFrame m0 m1 r0 r1 p) 0 = p.length :=
  (completeFrame_built m0 m1 r0 r1 hp).lengthField_eq _

end Sys2Proof.Machine
end

section
/-! SUPPORT. One flipped bit of a built frame (41_scanner.md R128). -/

namespace Sys2Proof.Machine

variable {m0 m1 r0 r1 : Byte} {buf p q : List Byte} {a b : Half} {i j k n : Nat}

/-! ### One flipped bit -/

theorem flipBit_length : (flipBit buf j k).length = buf.length := List.length_set

theorem getElem?_flipBit_of_ne (h : j ≠ i) : (flipBit buf j k)[i]? = buf[i]? := List.getElem?_set_ne h

theorem byteAt_flipBit_of_ne (h : j ≠ i) : byteAt (flipBit buf j k) i = byteAt buf i := by
  rw [byteAt, List.getD_eq_getElem?_getD, getElem?_flipBit_of_ne h, ← List.getD_eq_getElem?_getD, byteAt]

theorem flipped_ne (hk : k < 8) (x : Byte) : x ^^^ BitVec.twoPow 8 k ≠ x := by
  intro h
  have := congrArg (·.getLsbD k) h
  simp [hk] at this

theorem byteAt_flipBit_ne (hj : j < buf.length) (hk : k < 8) : byteAt (flipBit buf j k) j ≠ byteAt buf j := by
  rw [byteAt, flipBit, List.getD_eq_getElem?_getD, List.getElem?_set_self hj]
  exact flipped_ne hk _

theorem getElem?_flipBit_ne (hj : j < buf.length) (hk : k < 8) : (flipBit buf j k)[j]? ≠ buf[j]? := by
  intro h
  apply byteAt_flipBit_ne hj hk
  rw [byteAt, byteAt, List.getD_eq_getElem?_getD, h, ← List.getD_eq_getElem?_getD]

/-- A flipped bit always changes the checksum of a buffer (R108, law 5). -/
theorem checksum_flipBit_ne (seed : Byte) (hj : j < buf.length) (hk : k < 8) :
    checksum seed (flipBit buf j k) ≠ checksum seed buf := by
  have whole : buf = buf.take j ++ byteAt buf j :: buf.drop (j + 1) := by
    rw [byteAt, List.getD_eq_getElem _ _ hj, List.cons_getElem_drop_succ, List.take_append_drop]
  rw [flipBit, List.set_eq_take_append_cons_drop, if_pos hj]
  conv_rhs => rw [whole]
  exact checksum_ne_of_byte_ne (flipped_ne hk _) seed _ _

/-! ### What a Found verdict says of a buffer -/

/-- A Found payload is as long as the length field says, and all of its frame is there. -/
theorem scan_found (hm : findMarker m0 m1 buf = some n) (h : (scan buf m0 m1 a).1 = .found b q) :
    q.length = lengthField buf n ∧ n + 6 + q.length + 1 ≤ buf.length := by
  have complete : n + 6 + lengthField buf n + 1 ≤ buf.length := by
    by_contra hlen
    rw [scan_of_incomplete hm (by omega)] at h
    cases h
  obtain ⟨pre, hdr, pay, c, more, rfl, rfl, frame⟩ := exists_completeFrame hm complete
  rw [frame.scan_eq] at h
  split at h
  · cases h
    exact ⟨(frame.lengthField_eq _).symm, by rwa [frame.lengthField_eq] at complete⟩
  · cases h

/-- A buffer that is one frame with a checksum other than 0 over all its bytes is a mismatch (R108, law 3). -/
theorem scan_of_checksum_ne (hm : findMarker m0 m1 buf = some 0) (hlen : buf.length = 6 + lengthField buf 0 + 1)
    (hne : checksum Config.seed buf ≠ 0x00) (a : Half) : scan buf m0 m1 a = (.notFound, .checksumMismatch) := by
  obtain ⟨pre, hdr, pay, c, more, rfl, hpre, frame⟩ := exists_completeFrame hm (by omega)
  obtain rfl := List.length_eq_zero_iff.1 hpre
  have hmore : more = [] := by
    have : lengthField ([] ++ hdr ++ pay ++ c :: more) 0 = pay.length := frame.lengthField_eq _
    rw [this] at hlen
    have := frame.hdr_length
    simp only [List.length_append, List.length_cons, List.length_nil] at hlen
    exact List.length_eq_zero_iff.1 (by omega)
  subst hmore
  rw [frame.scan_eq, if_neg]
  rintro rfl
  exact hne (checksum_append_checksum Config.seed (hdr ++ pay))

/-! ### The parts of the frame -/

theorem findMarker_flip (hj : 2 ≤ j) : findMarker m0 m1 (flipBit (buildFrame m0 m1 r0 r1 p) j k) = some 0 := by
  rw [findMarker_eq_zero_iff, markerAt, getElem?_flipBit_of_ne (by omega), getElem?_flipBit_of_ne (by omega)]
  exact ⟨rfl, rfl⟩

section Flip

variable (hj : j < (buildFrame m0 m1 r0 r1 p).length) (hk : k < 8)

include hj hk

/-- A flip outside the marker and the length leaves the frame's extent, and breaks its checksum. -/
theorem scan_flip_intact_length (hp : p.length ≤ 65535) (hpart : j = 2 ∨ j = 3 ∨ 6 ≤ j) (a : Half) :
    scan (flipBit (buildFrame m0 m1 r0 r1 p) j k) m0 m1 a = (.notFound, .checksumMismatch) := by
  have hlength : lengthField (flipBit (buildFrame m0 m1 r0 r1 p) j k) 0 = p.length := by
    rw [lengthField, byteAt_flipBit_of_ne (by omega), byteAt_flipBit_of_ne (by omega)]
    exact lengthField_buildFrame hp
  refine scan_of_checksum_ne (findMarker_flip (by omega)) (by rw [hlength, flipBit_length, buildFrame_length]) ?_ a
  exact (checksum_flipBit_ne Config.seed hj hk).trans_eq (checksum_buildFrame m0 m1 r0 r1 p)

theorem lengthField_flip_ne (hp : p.length ≤ 65535) (hpart : j = 4 ∨ j = 5) :
    lengthField (flipBit (buildFrame m0 m1 r0 r1 p) j k) 0 ≠ p.length := by
  rw [← lengthField_buildFrame (m0 := m0) (m1 := m1) (r0 := r0) (r1 := r1) hp, lengthField, lengthField, ← pairBytes_toNat,
    ← pairBytes_toNat]
  intro h
  obtain ⟨h4, h5⟩ := pairBytes_inj (BitVec.eq_of_toNat_eq h)
  obtain rfl | rfl := hpart
  · exact byteAt_flipBit_ne hj hk h4
  · exact byteAt_flipBit_ne hj hk h5

theorem findMarker_flip_ne (hpart : j = 0 ∨ j = 1) :
    findMarker m0 m1 (flipBit (buildFrame m0 m1 r0 r1 p) j k) ≠ some 0 := by
  rw [ne_eq, findMarker_eq_zero_iff]
  rintro ⟨h0, h1⟩
  obtain rfl | rfl := hpart
  · exact getElem?_flipBit_ne hj hk h0
  · exact getElem?_flipBit_ne hj hk h1

/-- A flip in the marker leaves a Found frame that begins later and ends no later, so with a shorter payload. -/
theorem scan_flip_marker_found (hpart : j = 0 ∨ j = 1)
    (hm : findMarker m0 m1 (flipBit (buildFrame m0 m1 r0 r1 p) j k) = some n)
    (h : (scan (flipBit (buildFrame m0 m1 r0 r1 p) j k) m0 m1 a).1 = .found b q) : 1 ≤ n ∧ n + q.length ≤ p.length := by
  have hn : n ≠ 0 := by
    rintro rfl
    exact findMarker_flip_ne hj hk hpart hm
  obtain ⟨-, hlen⟩ := scan_found hm h
  rw [flipBit_length, buildFrame_length] at hlen
  omega

end Flip

theorem exists_marker_of_found (h : (scan buf m0 m1 a).1 = .found b q) : ∃ n, findMarker m0 m1 buf = some n := by
  cases hm : findMarker m0 m1 buf with
  | none => rw [scan_of_no_marker hm] at h; cases h
  | some n => exact ⟨n, rfl⟩

/-- Settles O51: the checksum over the whole frame no longer vanishes, or a Found payload has the other length the header then
gives, or the frame begins later and ends no later. -/
theorem singleBitFlipsAreNeverFoundIntact : Obligations.SingleBitFlipsAreNeverFoundIntact := by
  rintro m0 m1 r0 r1 p g a j k hp hj hk rfl
  refine ⟨fun b h => ?never, fun hpart => scan_flip_intact_length hj hk hp hpart a,
    fun hpart => ⟨lengthField_flip_ne hj hk hp hpart, fun hlt => ?truncated, fun b q h => ?found⟩,
    fun hpart => ⟨findMarker_flip_ne hj hk hpart, fun s b q => scan_flip_marker_found hj hk hpart⟩⟩
  case never =>
    obtain hpart | hpart | hpart : (j = 2 ∨ j = 3 ∨ 6 ≤ j) ∨ (j = 4 ∨ j = 5) ∨ (j = 0 ∨ j = 1) := by omega
    · rw [scan_flip_intact_length hj hk hp hpart] at h
      cases h
    · exact lengthField_flip_ne hj hk hp hpart (scan_found (findMarker_flip (by omega)) h).1.symm
    · obtain ⟨n, hm⟩ := exists_marker_of_found h
      have := scan_flip_marker_found hj hk hpart hm h
      omega
  case truncated =>
    refine scan_of_incomplete (findMarker_flip (by omega)) ?_ a
    rw [flipBit_length, buildFrame_length]
    omega
  case found => exact (scan_found (findMarker_flip (by omega)) h).1

end Sys2Proof.Machine
end

section
/-! SUPPORT. A state that tracks its buffer conforms to `scan` of it (41_scanner.md R122), and runs that complete. -/

namespace Sys2Proof.Machine

variable {s t : State} {buf pre hdr pay : List Byte} {n : Nat}

/-! ### Conformance, by what the scan has found so far -/

theorem conforms_searching (search : Searching s buf)
    (hst : s.st = if buf.getLast? = some (markerFirst s) then .sync1 else .hunt) :
    Conforms s buf (.notFound, .frameNotFound) := by
  have hopen : s.st = .hunt ∨ s.st = .sync1 := by
    rw [hst]
    split
    · exact .inr rfl
    · exact .inl rfl
  exact {
    scanned := (scan_of_no_marker search.no_marker _).symm
    result := by obtain h | h := hopen <;> rw [h] <;> rfl
    reason := by obtain h | h := hopen <;> rw [h] <;> rfl
    found := nofun
    mismatch := nofun
    truncated := nofun
    notFound := fun _ => ⟨noPayload_of_st_ne (by obtain h | h := hopen <;> rw [h] <;> exact nofun), search.pos, hst⟩ }

/-- In a frame whose bytes are not all there. -/
theorem conforms_truncated (hst : s.st = .hdr ∨ s.st = .payload ∨ s.st = .check)
    (hm : findMarker (markerFirst s) (markerSecond s) buf = some n) (hlen : buf.length < n + 6 + lengthField buf n + 1)
    (hpos : s.pos = BitVec.ofNat 32 buf.length) (hfstart : s.fstart = BitVec.ofNat 32 n) :
    Conforms s buf (.truncated, .frameTruncated) where
  scanned := (scan_of_incomplete hm hlen _).symm
  result := by obtain h | h | h := hst <;> rw [h] <;> rfl
  reason := by obtain h | h | h := hst <;> rw [h] <;> rfl
  found := nofun
  mismatch := nofun
  truncated := fun _ =>
    ⟨noPayload_of_st_ne (by obtain h | h | h := hst <;> rw [h] <;> exact nofun), hpos, n, hm, hfstart⟩
  notFound := nofun

/-- The frame so far with its payload complete is a complete frame of the buffer. -/
theorem FrameSoFar.completeFrame (h : FrameSoFar s pre hdr pay) (hhdr : hdr.length = 6) (hpay : pay.length = s.flen.toNat) :
    CompleteFrame (markerFirst s) (markerSecond s) pre hdr pay :=
  ⟨h.first_marker, hhdr, by rw [hpay, h.flen]⟩

/-- In PAYLOAD and CHECK at least the checksum byte is missing. -/
theorem FrameSoFar.conforms_truncated (h : FrameSoFar s pre hdr pay) (hst : s.st = .payload ∨ s.st = .check)
    (hhdr : hdr.length = 6) (hpay : pay.length ≤ s.flen.toNat)
    (hpos : s.pos = BitVec.ofNat 32 (pre ++ hdr ++ pay).length) :
    Conforms s (pre ++ hdr ++ pay) (.truncated, .frameTruncated) := by
  refine Machine.conforms_truncated (.inr hst) (findMarker_append_of_some h.first_marker pay) ?_ hpos h.fstart
  rw [lengthField_frame pre hhdr, ← h.flen, List.length_append, List.length_append]
  omega

theorem FrameSoFar.frameRegisters (h : FrameSoFar s pre hdr pay) (hhdr : hdr.length = 6)
    (hpos : s.pos = BitVec.ofNat 32 (pre.length + 6 + pay.length + 1)) (after : List Byte) :
    FrameRegisters s (pre ++ hdr ++ pay ++ after) pre.length pay.length := by
  refine ⟨h.fstart, hpos, ?_⟩
  rw [List.append_assoc _ pay, byteAt_header pre _ (by omega), byteAt_header pre _ (by omega), h.frsv, pairBytes_toNat]
  rfl

/-- What `PAYLOAD_READ` answers once the payload has been found. -/
theorem FrameSoFar.answer_payloadRead (h : FrameSoFar s pre hdr pay) (hst : s.st = .doneFound)
    (hpay : pay.length = s.flen.toNat) (k : Half) : answer (.payloadRead k) s =
      some (if k.toNat < pay.length then ⟨.ok, (byteAt pay k.toNat).setWidth 32⟩ else ⟨.errRange, 0⟩) := by
  rw [Machine.answer_payloadRead, ← hpay]
  by_cases hk : k.toNat < pay.length
  · rw [if_pos ⟨hst, hk⟩, if_pos hk, h.pbuf _ hk]
  · rw [if_neg fun hread => hk hread.2, if_neg hk]

theorem Tracks.conforms_doneFound (h : Tracks s buf) (hst : s.st = .doneFound) : ∃ r, Conforms s buf r := by
  obtain ⟨pre, hdr, pay, more, rfl, frame, hhdr, hpay, hcrc, hpos⟩ := (tracks_doneFound hst).1 h
  have complete := frame.completeFrame hhdr hpay
  have hsum : checksum Config.seed (hdr ++ pay) = s.rxcrc := by rw [hcrc, frame.scrc]
  refine ⟨(.found s.fbase pay, .found), ?_⟩
  exact {
    scanned := by rw [complete.scan_eq, if_pos hsum]
    result := by rw [hst]; rfl
    reason := by rw [hst]; rfl
    found := by
      rintro a p ⟨⟩
      exact ⟨hst, rfl, hpay.symm, frame.answer_payloadRead hst hpay, pre.length, complete.findMarker_eq _,
        frame.frameRegisters hhdr hpos _, hcrc, by rw [byteAt_checksum pre hhdr, hcrc]⟩
    mismatch := nofun
    truncated := nofun
    notFound := nofun }

theorem Tracks.conforms_doneMismatch (h : Tracks s buf) (hst : s.st = .doneMismatch) : ∃ r, Conforms s buf r := by
  obtain ⟨pre, hdr, pay, more, rfl, frame, hhdr, hpay, hcrc, hpos⟩ := (tracks_doneMismatch hst).1 h
  have complete := frame.completeFrame hhdr hpay
  have hsum : checksum Config.seed (hdr ++ pay) ≠ s.rxcrc := by rw [← frame.scrc]; exact hcrc.symm
  refine ⟨(.notFound, .checksumMismatch), ?_⟩
  exact {
    scanned := by rw [complete.scan_eq, if_neg hsum]
    result := by rw [hst]; rfl
    reason := by rw [hst]; rfl
    found := nofun
    mismatch := fun _ => by
      rw [← hpay]
      exact ⟨hst, noPayload_of_st_ne (by rw [hst]; exact nofun), pre.length, complete.findMarker_eq _,
        (complete.lengthField_eq _).symm, frame.frameRegisters hhdr hpos _, by rw [slice_frame pre hhdr, frame.scrc],
        (byteAt_checksum pre hhdr ..).symm⟩
    truncated := nofun
    notFound := nofun }

/-- A state that tracks a buffer conforms to `scan` of it (R122). -/
theorem Tracks.conforms (h : Tracks s buf) : ∃ r, Conforms s buf r := by
  cases hst : s.st with
  | hunt =>
    obtain ⟨search, -, last⟩ := (tracks_hunt hst).1 h
    exact ⟨_, conforms_searching search (by rw [hst, if_neg last])⟩
  | sync1 =>
    obtain ⟨search, -, last⟩ := (tracks_sync1 hst).1 h
    exact ⟨_, conforms_searching search (by rw [hst, if_pos last])⟩
  | hdr =>
    obtain ⟨pre, hdr, rfl, frame, -, hi5, -, pos⟩ := (tracks_hdr hst).1 h
    exact ⟨_, conforms_truncated (.inl hst) frame.first_marker (by rw [List.length_append]; omega) pos frame.fstart⟩
  | payload =>
    obtain ⟨pre, hdr, pay, rfl, frame, hhdr, hpay, -, pos⟩ := (tracks_payload hst).1 h
    exact ⟨_, frame.conforms_truncated (.inl hst) hhdr hpay.le pos⟩
  | check =>
    obtain ⟨pre, hdr, pay, rfl, frame, hhdr, hpay, -, pos⟩ := (tracks_check hst).1 h
    exact ⟨_, frame.conforms_truncated (.inr hst) hhdr hpay.le pos⟩
  | doneFound => exact h.conforms_doneFound hst
  | doneMismatch => exact h.conforms_doneMismatch hst

/-! ### Runs complete -/

theorem StateInv.exec_completes (h : StateInv s) (i : Instr) : ∃ t, exec i s = .next t := by
  cases i with
  | scanByte b => obtain ⟨t, step⟩ := h.exists_byteStep b; exact ⟨t, step.exec_eq⟩
  | payloadRead k => exact ⟨_, exec_payloadRead k s⟩
  | regRead k => exact ⟨_, exec_regRead k s⟩
  | nop | crcInit | crcByte | setSync | scanStart => exact ⟨_, rfl⟩

theorem StateInv.step_safe (h : StateInv s) : StepSafe s := by
  cases hinput : s.input with
  | nil => exact ⟨_, step_nil hinput⟩
  | cons x rest =>
    cases x with
    | reset c => exact ⟨_, step_cons hinput⟩
    | command w =>
      cases hd : decode w with
      | error e => exact ⟨_, (step_command hinput).trans (acceptWord_error hd _)⟩
      | ok i =>
        obtain ⟨t, hx⟩ := (h.with_crc_input_rsp s.crc rest s.rsp).exec_completes i
        exact ⟨t, (step_command hinput).trans ((acceptWord_ok hd _).trans hx)⟩

theorem StateInv.runFor_completes (h : StateInv s) (n : Nat) : ∃ t, runFor n s = .next t := by
  induction n generalizing s with
  | zero => exact ⟨s, rfl⟩
  | succ n ih =>
    obtain ⟨u, hu⟩ := h.step_safe
    rw [runFor_step hu]
    exact ih (everyStepKeepsTheInvariant s u h hu)

/-- A step takes one input, if there is one. -/
theorem step_input (h : step s = .next t) : t.input = s.input.tail := by
  cases hinput : s.input with
  | nil => cases (step_nil hinput).symm.trans h; exact hinput
  | cons x rest => exact (stepReadsNoResponseAndNoLaterInput s t x rest hinput h).1

theorem runFor_input (h : runFor n s = .next t) : t.input = s.input.drop n := by
  induction n generalizing s with
  | zero => cases h; rfl
  | succ n ih =>
    obtain ⟨u, hu, hrun⟩ := runFor_succ h
    rw [ih hrun, step_input hu, List.drop_tail]

/-- Settles O45: the run completes, its end tracks the presented buffer, and so it conforms. -/
theorem anyCommandSequenceConformsToScan : Obligations.AnyCommandSequenceConformsToScan := by
  intro inputs
  obtain ⟨t, hrun⟩ := (stateInv_resetWith inputs).runFor_completes inputs.length
  have tracks := tracks_of_run hrun
  rw [List.take_length] at tracks
  obtain ⟨r, conforms⟩ := tracks.conforms
  exact ⟨t, r, hrun, (runFor_input hrun).trans List.drop_length, conforms⟩

end Sys2Proof.Machine
end

section
/-! SUPPORT. Bytes presented to the block (41_scanner.md R121): a scan from `SCAN_START` on (R122, R127), and how many bytes
a frame takes from its marker on (R140). -/

namespace Sys2Proof.Machine

variable {b c d : Byte} {a : Half} {s t : State} {buf bs : List Byte} {rest : List HostInput} {n k : Nat}

/-! ### A scan from `SCAN_START` on -/

theorem byteInputs_append (bs cs : List Byte) : byteInputs (bs ++ cs) = byteInputs bs ++ byteInputs cs := by
  simp [byteInputs, commandInputs]

/-- Where a scan that began in `s` with payload base address `a` stands once the bytes of `buf` have been presented, with
`rest` still to come. -/
structure Presented (s : State) (a : Half) (buf : List Byte) (rest : List HostInput) (t : State) : Prop where
  inv : StateInv t
  tracks : Tracks t buf
  input : t.input = rest
  crc : t.crc = s.crc
  sync : t.sync = s.sync
  fbase : t.fbase = a

theorem runFor_byteInputs (hinv : StateInv s) (h : Tracks s buf) (hinput : s.input = byteInputs bs ++ rest) :
    ∃ t, runFor bs.length s = .next t ∧ Presented s s.fbase (buf ++ bs) rest t := by
  induction bs generalizing s buf with
  | nil => exact ⟨s, rfl, hinv, by rwa [List.append_nil], hinput, rfl, rfl, rfl⟩
  | cons b bs ih =>
    have hinv' := hinv.with_crc_input_rsp s.crc (byteInputs bs ++ rest) s.rsp
    obtain ⟨u, step⟩ := hinv'.exists_byteStep b
    obtain ⟨hcrc, hsync, hfbase, hin⟩ := step.frame
    obtain ⟨t, hrun, at_end⟩ := ih (step.stateInv hinv') (step.tracks hinv' (h.with_crc_input_rsp _ _ _)) hin
    refine ⟨t, (runFor_step ((step_encode hinput).trans step.exec_eq)).trans hrun, at_end.inv, ?_, at_end.input,
      at_end.crc.trans hcrc, at_end.sync.trans hsync, at_end.fbase.trans hfbase⟩
    rw [List.append_cons]
    exact at_end.tracks

theorem runFor_scan (hinv : StateInv s) (hinput : s.input = .command (encode (.scanStart a)) :: byteInputs bs ++ rest) :
    ∃ t, runFor (1 + bs.length) s = .next t ∧ Presented s a bs rest t := by
  obtain ⟨t, hrun, at_end⟩ := runFor_byteInputs (bs := bs) (rest := rest)
    (stateInv_respond_restartScan (s := { s with fbase := a, input := byteInputs bs ++ rest }) .ok 0 hinv.pbuf_wf)
    (tracks_respond_restartScan .ok 0) rfl
  refine ⟨t, ?_, { at_end with }⟩
  rw [Nat.add_comm, runFor_step ((step_encode hinput).trans (exec_scanStart a _))]
  exact hrun

theorem Presented.markerFirst_eq (h : Presented s a buf rest t) : markerFirst t = markerFirst s := congrArg hiByte h.sync

theorem Presented.markerSecond_eq (h : Presented s a buf rest t) : markerSecond t = markerSecond s := congrArg loByte h.sync

/-- The block conforms to `scan` of the presented bytes with the marker the scan began with. -/
theorem Presented.conforms (h : Presented s a buf rest t) :
    Conforms t buf (scan buf (markerFirst s) (markerSecond s) a) := by
  obtain ⟨r, conforms⟩ := h.tracks.conforms
  have scanned := conforms.scanned
  rw [h.markerFirst_eq, h.markerSecond_eq, h.fbase] at scanned
  exact scanned ▸ conforms

/-- The same with some of the bytes still to come. -/
theorem runFor_scan_take (hinv : StateInv s) (hinput : s.input = .command (encode (.scanStart a)) :: byteInputs buf ++ rest)
    (hk : k ≤ buf.length) : ∃ t, runFor (1 + k) s = .next t ∧
      Presented s a (buf.take k) (byteInputs (buf.drop k) ++ rest) t := by
  rw [← List.take_append_drop k buf, byteInputs_append, List.cons_append, List.append_assoc] at hinput
  have := runFor_scan hinv hinput
  rwa [List.length_take_of_le hk] at this

theorem findMarker_take {m0 m1 : Byte} (h : findMarker m0 m1 buf = some n) (hn : n + 2 ≤ k) (hk : k ≤ buf.length) :
    findMarker m0 m1 (buf.take k) = some n :=
  findMarker_of_append (by rwa [List.take_append_drop]) (by rw [List.length_take_of_le hk]; omega)

theorem byteAt_take {i : Nat} (h : i < k) : byteAt (buf.take k) i = byteAt buf i := by
  simp [byteAt, h]

theorem lengthField_take (h : n + 6 ≤ k) : lengthField (buf.take k) n = lengthField buf n := by
  rw [lengthField, byteAt_take (by omega), byteAt_take (by omega), ← lengthField]

/-! ### The round trip through the block -/

/-- The payload of a Found verdict is readable as the validated frame (42_host_access.md R163). -/
theorem Conforms.validatedFrame_eq {p : List Byte} {reason : ScanReason} (h : Conforms s buf (.found a p, reason)) :
    validatedFrame s = some ⟨a, p⟩ := by
  obtain ⟨hst, hfbase, hflen, reads, -⟩ := h.found a p rfl
  have hread : ∀ i, i < p.length → s.pbuf.read i = byteAt p i := by
    intro i hi
    have := s.flen.isLt
    have hk : (BitVec.ofNat 16 i).toNat = i := Nat.mod_eq_of_lt (by omega)
    have answer := reads (BitVec.ofNat 16 i)
    rw [hk, if_pos hi] at answer
    obtain ⟨-, -, hdata⟩ := payloadRead_ok answer
    rw [hk] at hdata
    exact (zext32_injective (by decide) hdata).symm
  have payload : (List.range p.length).map (memRead · s) = p := by
    refine List.ext_getElem (by simp) fun i _ hi => ?_
    rw [List.getElem_map, List.getElem_range, memRead, hread i hi, byteAt, List.getD_eq_getElem _ _ hi]
  rw [validatedFrame, if_pos hst, hfbase, hflen, payload]

/-- Settles O50: the block conforms to `scan` of the built frame, which is Found at offset 0. -/
theorem framesRoundTripThroughTheBlock : Obligations.FramesRoundTripThroughTheBlock := by
  intro s a r0 r1 p rest hinv hp hinput
  obtain ⟨t, hrun, at_end⟩ := runFor_scan hinv hinput
  rw [buildFrame_length] at hrun
  have conforms := at_end.conforms
  rw [builtFrameScansToItsPayload _ _ _ _ _ _ hp] at conforms
  obtain ⟨hst, -, -, -, off, hoff, ⟨hfstart, hpos, hfrsv⟩, -⟩ := conforms.found a p rfl
  rw [at_end.markerFirst_eq, at_end.markerSecond_eq, findMarker_buildFrame] at hoff
  cases hoff
  refine ⟨t, hrun, at_end.input, hst, conforms.validatedFrame_eq, ?pos, hfstart, ?frsv, at_end.crc, at_end.sync, at_end.inv⟩
  case pos =>
    rw [hpos]
    exact Nat.mod_eq_of_lt (by omega)
  case frsv =>
    refine BitVec.eq_of_toNat_eq (hfrsv.trans ?_)
    rw [pairBytes_toNat]
    rfl

/-! ### The bytes of a frame from its marker on -/

/-- In `n` more steps a final state is reached, with `rest` still to come, and `RESULT` is Truncated until then (R140). -/
def EndsAfter (n : Nat) (rest : List HostInput) (s : State) : Prop :=
  (∀ k, k < n → ∃ t, runFor k s = .next t ∧ statusResult t.st = 1 ∧ isFinal t.st = false) ∧
  ∃ t, runFor n s = .next t ∧ isFinal t.st = true ∧ t.input = rest

theorem endsAfter_zero (hfinal : isFinal s.st = true) (hinput : s.input = rest) : EndsAfter 0 rest s :=
  ⟨nofun, s, rfl, hfinal, hinput⟩

/-- One byte of a frame. -/
theorem endsAfter_byte (hst : s.st = .hdr ∨ s.st = .payload ∨ s.st = .check) (hinput : s.input = byteInputs (b :: bs) ++ rest)
    (step : ByteStep b { s with input := byteInputs bs ++ rest } t) (h : EndsAfter n rest t) : EndsAfter (n + 1) rest s := by
  have hs := (step_encode hinput).trans step.exec_eq
  obtain ⟨before, last⟩ := h
  refine ⟨fun k hk => ?_, ?_⟩
  · cases k with
    | zero => exact ⟨s, rfl, by obtain h | h | h := hst <;> rw [h] <;> exact ⟨rfl, rfl⟩⟩
    | succ k =>
      rw [runFor_step hs]
      exact before k (Nat.lt_of_succ_lt_succ hk)
  · rw [runFor_step hs]
    exact last

theorem endsAfter_check (hst : s.st = .check) (hinput : s.input = byteInputs [b] ++ rest) : EndsAfter 1 rest s := by
  by_cases hc : b = s.scrc
  · exact endsAfter_byte (.inr (.inr hst)) hinput (.checkMatch hst hc) (endsAfter_zero rfl rfl)
  · exact endsAfter_byte (.inr (.inr hst)) hinput (.checkMismatch hst hc) (endsAfter_zero rfl rfl)

/-- From PAYLOAD on come the missing payload bytes and the checksum byte. -/
theorem endsAfter_payload (hst : s.st = .payload) (hp : s.pcnt.toNat < s.flen.toNat)
    (hlen : s.pcnt.toNat + bs.length = s.flen.toNat + 1) (hinput : s.input = byteInputs bs ++ rest) :
    EndsAfter bs.length rest s := by
  induction bs generalizing s with
  | nil => rw [List.length_nil] at hlen; omega
  | cons b bs ih =>
    rw [List.length_cons] at hlen
    have exists_pcnt := byteExists_pcnt hp
    have hsucc := pcnt_succ_toNat hp
    by_cases hl : s.pcnt + 1 = s.flen
    · have := (pcnt_succ_eq_flen hp).1 hl
      obtain ⟨c, rfl⟩ := List.length_eq_one_iff.1 (show bs.length = 1 by omega)
      exact endsAfter_byte (.inr (.inl hst)) hinput (.payloadLast hst exists_pcnt hl) (endsAfter_check rfl rfl)
    · have := mt (pcnt_succ_eq_flen hp).2 hl
      exact endsAfter_byte (.inr (.inl hst)) hinput (.payloadMore hst exists_pcnt hl)
        (ih hst (show (s.pcnt + 1).toNat < s.flen.toNat by omega)
          (show (s.pcnt + 1).toNat + bs.length = s.flen.toNat + 1 by omega) rfl)

/-- The header's last byte gives the length `L`; `L + 1` bytes follow it. -/
theorem endsAfter_header_last (hst : s.st = .hdr) (hi : s.hidx = 5) (hlen : bs.length = (pairBytes (hiByte s.flen) b).toNat + 1)
    (hinput : s.input = byteInputs (b :: bs) ++ rest) : EndsAfter (bs.length + 1) rest s := by
  by_cases hl : pairBytes (hiByte s.flen) b = 0
  · rw [hl] at hlen
    obtain ⟨c, rfl⟩ := List.length_eq_one_iff.1 hlen
    exact endsAfter_byte (.inl hst) hinput (.hdrLengthZero hst hi hl) (endsAfter_check rfl rfl)
  · exact endsAfter_byte (.inl hst) hinput (.hdrLengthPositive hst hi hl)
      (endsAfter_payload rfl (Nat.pos_of_ne_zero fun e => hl (BitVec.eq_of_toNat_eq e)) (by simp [hlen]) rfl)

/-- After the marker come four header bytes, whose last two give the length `L`, and `L + 1` bytes more. -/
theorem endsAfter_marker {r0 r1 : Byte} (hst : s.st = .hdr) (hi : s.hidx = 2) (hlen : bs.length = (pairBytes c d).toNat + 1)
    (hinput : s.input = byteInputs (r0 :: r1 :: c :: d :: bs) ++ rest) : EndsAfter (r0 :: r1 :: c :: d :: bs).length rest s := by
  refine endsAfter_byte (.inl hst) hinput (.hdrReservedHigh hst hi) ?_
  refine endsAfter_byte (.inl hst) rfl (.hdrReservedLow hst (by simp [hi])) ?_
  refine endsAfter_byte (.inl hst) rfl (.hdrLengthHigh hst (by simp [hi])) ?_
  exact endsAfter_header_last hst (by simp [hi]) (by simpa using hlen) rfl

theorem isFinal_iff_statusReason {st : ScanState} :
    isFinal st = true ↔ statusReason st = reasonCode .found ∨ statusReason st = reasonCode .checksumMismatch := by
  cases st <;> decide

theorem exists_four_of_length_le (h : 4 ≤ bs.length) : ∃ r0 r1 c d bs', bs = r0 :: r1 :: c :: d :: bs' :=
  match bs, h with
  | r0 :: r1 :: c :: d :: bs', _ => ⟨r0, r1, c, d, bs', rfl⟩

/-- Settles O43: from HDR by the bytes still to come; a whole scan by conformance with `scan` of the bytes presented so far. -/
theorem aFrameEndsAfterExactlyItsBytes : Obligations.AFrameEndsAfterExactlyItsBytes := by
  refine ⟨fun s bs rest _ hst hi hinput hlen => ?fromMarker,
    fun s a buf off rest hinv hinput hm => ⟨fun k hlo hk hopen => ?truncated, fun hk => ?final⟩⟩
  case fromMarker =>
    obtain ⟨r0, r1, c, d, bs, rfl⟩ := exists_four_of_length_le (bs := bs) (by omega)
    refine endsAfter_marker hst hi ?_ hinput
    have : bs.length + 4 = 4 + (c.toNat * 256 + d.toNat) + 1 := hlen
    rw [pairBytes_toNat]
    omega
  case truncated =>
    obtain ⟨t, hrun, at_end⟩ := runFor_scan_take hinv hinput hk
    have incomplete : (buf.take k).length < off + 6 + lengthField (buf.take k) off + 1 := by
      rw [List.length_take_of_le hk]
      by_cases h6 : k < off + 6
      · omega
      · rw [lengthField_take (by omega)]
        omega
    refine ⟨t, hrun, at_end.conforms.result.trans ?_⟩
    rw [scan_of_incomplete (findMarker_take hm hlo hk) incomplete]
    rfl
  case final =>
    obtain ⟨t, hrun, at_end⟩ := runFor_scan_take hinv hinput hk
    obtain ⟨-, verdict⟩ := aCompleteFrameIsFinal _ _ a _ [] off (findMarker_take hm (by omega) hk)
      (by rw [lengthField_take (by omega), List.length_take_of_le hk])
    refine ⟨t, hrun, isFinal_iff_statusReason.2 (verdict.imp (fun e => ?_) (fun e => ?_))⟩
    · rw [at_end.conforms.reason, e]
    · rw [at_end.conforms.reason, e]

end Sys2Proof.Machine
end

section
/-! SUPPORT. The host access commands (42_host_access.md R160 to R162), the frame they read out (R163), and the step with
nothing to do (R164). -/

namespace Sys2Proof.Machine

variable {h : Half} {i : Instr} {s t : State}

/-! ### The idle step and NOP -/

/-- Settles O6. -/
theorem noInputChangesNothing : Obligations.NoInputChangesNothing := fun _ => step_nil

theorem decode_eq_nop_iff (w : CmdWord) : decode w = .ok .nop ↔ w = 0x000000 := by
  constructor
  · intro hd
    exact (encode_of_decode hd).symm
  · rintro rfl
    exact decode_encode .nop

/-- Settles O10: the check of form N lets `IMM = 0` alone through. -/
theorem nopDoesNothing : Obligations.NopDoesNothing := by
  refine ⟨exec_nop, decode_eq_nop_iff, fun imm s => ?_⟩
  have hdecode : decode ((0x00 : Byte) ++ imm) = _ := (decode_fields 0x00 imm).trans (decodeN_eq .nop imm)
  split
  · next himm => exact acceptWord_ok (hdecode.trans (if_neg (not_not.2 himm))) s
  · next himm => exact acceptWord_error (hdecode.trans (if_pos himm)) s

/-! ### PAYLOAD_READ and REG_READ -/

theorem exec_payloadRead_found (hst : s.st = .doneFound) (hh : h.toNat < s.flen.toNat) :
    exec (.payloadRead h) s = .next (respond .ok ((s.pbuf.read h.toNat).setWidth 32) s) := by
  rw [exec_payloadRead, if_pos ⟨hst, hh⟩]

theorem exec_payloadRead_errRange (hout : s.st ≠ .doneFound ∨ s.flen.toNat ≤ h.toNat) :
    exec (.payloadRead h) s = .next (respond .errRange 0 s) := by
  rw [exec_payloadRead, if_neg]
  rintro ⟨hst, hh⟩
  exact hout.elim (fun hne => hne hst) (fun hle => Nat.not_lt.2 hle hh)

/-- Settles O11: index `0xFFFF` is at or above every `FLEN`, which has 16 bits. -/
theorem payloadReadExposesOnlyAFoundFrame : Obligations.PayloadReadExposesOnlyAFoundFrame := by
  refine fun h s => ⟨acceptWord_ok (decode_encode (.payloadRead h)) s, exec_payloadRead_found,
    exec_payloadRead_errRange, ?_⟩
  rintro rfl
  exact exec_payloadRead_errRange (.inr (Nat.le_of_lt_succ s.flen.isLt))

theorem exec_regRead_number (r : RegName) (s : State) :
    exec (.regRead (regNumber r)) s = .next (respond .ok (readReg r s) s) :=
  exec_regRead_some (regOfNumber_number r) s

/-- Settles O12: each number is its register's by `regOfNumber_number`, and from `0x000C` on there is none. -/
theorem regReadAnswersEveryRegister : Obligations.RegReadAnswersEveryRegister := by
  intro s
  have reads := fun r => exec_regRead_number r s
  exact ⟨fun h => acceptWord_ok (decode_encode (.regRead h)) s, reads .CRC, reads .STATUS, reads .SYNC, reads .FBASE,
    reads .FRSV, reads .FLEN, reads .PCNT, reads .SCRC, reads .RXCRC, reads .POS, reads .FSTART, reads .HIDX,
    fun _ hnone => exec_regRead_none (regOfNumber_none.2 hnone) s⟩

/-! ### The validated frame -/

theorem validatedFrame_eq_some_iff {f : ValidatedFrame} : validatedFrame s = some f ↔
    s.st = .doneFound ∧ f = ⟨s.fbase, (List.range s.flen.toNat).map (memRead · s)⟩ := by
  by_cases hst : s.st = .doneFound
  · simp [validatedFrame, hst, eq_comm]
  · simp [validatedFrame, hst]

/-- A byte of the read-out payload is the byte of `PBUF`. -/
theorem byteAt_readOut {k n : Nat} (hk : k < n) (s : State) :
    byteAt ((List.range n).map (memRead · s)) k = s.pbuf.read k := by
  simp [byteAt, hk, memRead]

/-- In a final state every command but the two restarts leaves all but `CRC` and the response. -/
theorem exec_final_frame (hfinal : isFinal s.st = true) (hstart : ∀ a, i ≠ .scanStart a) (hsync : ∀ m, i ≠ .setSync m)
    (hx : exec i s = .next t) : ∃ c r, t = { s with crc := c, rsp := r } := by
  obtain ⟨b, -, step⟩ | ⟨m, hi, -⟩ | ⟨a, hi, -⟩ | ⟨b, c, -, rfl⟩ | ⟨-, c, d, rfl⟩ := exec_cases hx
  · obtain ⟨hopen, -⟩ | ⟨-, rfl⟩ := step.open_or_final
    · exact absurd (hfinal.symm.trans hopen) nofun
    · exact ⟨_, _, rfl⟩
  · exact absurd hi (hsync m)
  · exact absurd hi (hstart a)
  · exact ⟨_, _, rfl⟩
  · exact ⟨_, _, rfl⟩

/-- The frame is read off the scanner's registers and `PBUF`. -/
theorem validatedFrame_with_crc_input_rsp (s : State) (c : Byte) (q : List HostInput) (r : Option Response) :
    validatedFrame { s with crc := c, input := q, rsp := r } = validatedFrame s := rfl

/-- Settles O14: `PAYLOAD_READ` answers from the bytes the frame is made of, and a final state is left by a restart alone. -/
theorem validatedFrameIsReadableUntilRestart : Obligations.ValidatedFrameIsReadableUntilRestart := by
  intro s f hframe
  obtain ⟨hst, rfl⟩ := validatedFrame_eq_some_iff.1 hframe
  have hfinal : isFinal s.st = true := isFinal_iff.2 (.inl hst)
  have hlen : ((List.range s.flen.toNat).map (memRead · s)).length = s.flen.toNat := by simp
  refine ⟨rfl, hlen, fun k hk => ?readable, exec_scanByte_final hfinal, fun t w rest hinput hs hstart hsync => ?kept⟩
  case readable =>
    have hk : k.toNat < s.flen.toNat := hk.trans_eq hlen
    rw [answer_payloadRead, if_pos ⟨hst, hk⟩, byteAt_readOut hk]
  case kept =>
    obtain ⟨c, hreset, -⟩ | ⟨w, e, -, -, rfl⟩ | ⟨w, i, ⟨⟩, hd, hx⟩ := step_cons_cases hinput hs
    · cases hreset
    · exact hframe
    · obtain ⟨c, r, rfl⟩ := exec_final_frame (s := { s with input := rest }) hfinal
        (fun a hi => hstart a (hi ▸ hd)) (fun m hi => hsync m (hi ▸ hd)) hx
      exact (validatedFrame_with_crc_input_rsp s c rest r).trans hframe

end Sys2Proof.Machine
end

section
/-! SUPPORT. The response of every command, with its cause (60_exceptions.md R180 to R183). -/

namespace Sys2Proof.Machine

variable {i : Instr} {r : Response} {s t : State} {w : CmdWord}

/-- What a command answers in state `s`: one case per row of R181, and one per `OK`. -/
inductive Answers (s : State) : Instr → Response → Prop
  | nop : Answers s .nop ⟨.ok, 0⟩
  | crcInit (b : Byte) : Answers s (.crcInit b) ⟨.ok, 0⟩
  | crcByte (b : Byte) : Answers s (.crcByte b) ⟨.ok, 0⟩
  | setSync (m : Half) : Answers s (.setSync m) ⟨.ok, 0⟩
  | scanStart (a : Half) : Answers s (.scanStart a) ⟨.ok, 0⟩
  | consumed (b : Byte) (hopen : isFinal s.st = false) : Answers s (.scanByte b) ⟨.ok, 0⟩
  | ignored (b : Byte) (hfinal : isFinal s.st = true) : Answers s (.scanByte b) ⟨.ignored, 0⟩
  | payload (k : Half) (hst : s.st = .doneFound) (hk : k.toNat < s.flen.toNat) :
      Answers s (.payloadRead k) ⟨.ok, (s.pbuf.read k.toNat).setWidth 32⟩
  | outOfRange (k : Half) (hout : s.st ≠ .doneFound ∨ s.flen.toNat ≤ k.toNat) :
      Answers s (.payloadRead k) ⟨.errRange, 0⟩
  | register (k : Half) (n : RegName) (hk : regOfNumber k = some n) : Answers s (.regRead k) ⟨.ok, readReg n s⟩
  | noRegister (k : Half) (hk : 0x000B < k.toNat) : Answers s (.regRead k) ⟨.errIllegal, 0⟩

/-- Every command that completes gives one of these responses. -/
theorem exec_answers (hx : exec i s = .next t) : ∃ r, t.rsp = some r ∧ Answers s i r := by
  cases i with
  | nop => cases hx; exact ⟨_, rfl, .nop⟩
  | crcInit b => cases hx; exact ⟨_, rfl, .crcInit b⟩
  | crcByte b => cases hx; exact ⟨_, rfl, .crcByte b⟩
  | setSync m => cases hx; exact ⟨_, rfl, .setSync m⟩
  | scanStart a => cases hx; exact ⟨_, rfl, .scanStart a⟩
  | scanByte b =>
    obtain ⟨hopen, -, hrsp⟩ | ⟨hfinal, rfl⟩ := (ByteStep.of_exec hx).open_or_final
    · exact ⟨_, hrsp, .consumed b hopen⟩
    · exact ⟨_, rfl, .ignored b hfinal⟩
  | payloadRead k =>
    by_cases hk : s.st = .doneFound ∧ k.toNat < s.flen.toNat
    · cases (exec_payloadRead_found hk.1 hk.2).symm.trans hx
      exact ⟨_, rfl, .payload k hk.1 hk.2⟩
    · have hout : s.st ≠ .doneFound ∨ s.flen.toNat ≤ k.toNat := (not_and_or.1 hk).imp_right Nat.not_lt.1
      cases (exec_payloadRead_errRange hout).symm.trans hx
      exact ⟨_, rfl, .outOfRange k hout⟩
  | regRead k =>
    cases hk : regOfNumber k with
    | none => cases (exec_regRead_none hk s).symm.trans hx; exact ⟨_, rfl, .noRegister k (regOfNumber_none.1 hk)⟩
    | some n => cases (exec_regRead_some hk s).symm.trans hx; exact ⟨_, rfl, .register k n hk⟩

theorem le_of_regOfNumber {k : Half} {n : RegName} (h : regOfNumber k = some n) : k.toNat ≤ 0x000B := by
  by_contra hlt
  rw [regOfNumber_none.2 (Nat.lt_of_not_le hlt)] at h
  cases h

/-! ### Error responses -/

/-- Of the commands only the reads raise an error, and an error carries no data. -/
theorem Answers.of_error (h : Answers s i r) (herr : r.code = .errIllegal ∨ r.code = .errRange) :
    IsRead i ∧ r.data = 0 := by
  cases h with
  | outOfRange k => exact ⟨.inr (.inl ⟨k, rfl⟩), rfl⟩
  | noRegister k => exact ⟨.inr (.inr ⟨k, rfl⟩), rfl⟩
  | nop | crcInit | crcByte | setSync | scanStart | consumed | ignored | payload | register => cases herr <;> contradiction

theorem exec_error (hx : exec i s = .next t) (hr : t.rsp = some r) (herr : r.code = .errIllegal ∨ r.code = .errRange) :
    r.data = 0 ∧ t = { s with rsp := some r } := by
  obtain ⟨r', hr', answers⟩ := exec_answers hx
  cases hr'.symm.trans hr
  obtain ⟨hread, hdata⟩ := answers.of_error herr
  obtain ⟨c, d, rfl⟩ := exec_read hread hx
  exact ⟨hdata, congrArg (fun q => { s with rsp := q }) hr⟩

/-- Settles O31: an illegal word only raises its error, and of the commands only a read can. -/
theorem errorResponsesChangeNoState : Obligations.ErrorResponsesChangeNoState := by
  intro w rest s t r hinput hs hr herr
  obtain ⟨c, hreset, -⟩ | ⟨w, e, -, -, rfl⟩ | ⟨w, i, -, -, hx⟩ := step_cons_cases hinput hs
  · cases hreset
  · cases hr; exact ⟨rfl, rfl⟩
  · exact exec_error hx hr herr

/-! ### The causes of each response code -/

/-- The words that R75 rejects: the first three rows of R181. -/
def IllegalFields (w : CmdWord) : Prop :=
  wordOp w ∉ definedOpcodes ∨ (wordOp w = 0x00 ∧ wordImm w ≠ 0) ∨
    (wordOp w ∈ [0x01, 0x02, 0x12] ∧ hiByte (wordImm w) ≠ 0)

theorem illegalFields_of_decode_error {e : IllegalWord} (hd : decode w = .error e) : IllegalFields w := by
  have checks := decoderMakesTheChecksInOrder.1 (wordOp w) (wordImm w)
  rw [word_of_fields, hd] at checks
  by_contra legal
  simp only [IllegalFields, definedOpcodes, not_or] at legal
  obtain ⟨hop, hformN, hformB⟩ := legal
  rw [if_neg hop, if_neg hformN, if_neg hformB] at checks
  split_ifs at checks

/-- Settles O32: a rejected word has one of the first three causes, and a command's word carries its fields, so that each
response `Answers` lists shows its cause. -/
theorem responseCodesHaveExactlyTheListedCauses : Obligations.ResponseCodesHaveExactlyTheListedCauses := by
  intro w s t r hx hr
  cases hd : decode w with
  | error e =>
    cases (acceptWord_error hd s).symm.trans hx
    cases hr
    have illegal := illegalFields_of_decode_error hd
    refine ⟨iff_of_true rfl (illegal.imp_right (Or.imp_right .inl)), iff_of_false nofun ?notRange,
      iff_of_false nofun ?notIgnored, fun _ => rfl, absurd rfl⟩
    case notRange =>
      rintro ⟨hop, -⟩
      simp [IllegalFields, definedOpcodes, hop] at illegal
    case notIgnored =>
      rintro ⟨hop, himm, -⟩
      simp [IllegalFields, definedOpcodes, hop, himm] at illegal
  | ok i =>
    obtain ⟨r', hr', answers⟩ := exec_answers ((acceptWord_ok hd s).symm.trans hx)
    cases hr'.symm.trans hr
    obtain ⟨hop, himm⟩ := fields_of_decodeFields hd
    rw [hop, himm]
    cases answers with
    | nop | crcInit | crcByte | setSync | scanStart => simp [opcodeOf, immOf]
    | consumed b hopen | ignored b hopen => simpa [opcodeOf, immOf, ← isFinal_iff] using hopen
    | payload k hst hk => simp [opcodeOf, immOf, hst, hk]
    | outOfRange k hout => simp [opcodeOf, immOf, hout]
    | register k n hk => simpa [opcodeOf, immOf] using le_of_regOfNumber hk
    | noRegister k hk => simp [opcodeOf, immOf, hk]

/-! ### Completion -/

/-- A command word gets a response. -/
theorem step_command_rsp {rest : List HostInput} (hinput : s.input = .command w :: rest) (hs : step s = .next t) :
    ∃ r, t.rsp = some r := by
  obtain ⟨c, hreset, -⟩ | ⟨w, e, -, -, rfl⟩ | ⟨w, i, -, -, hx⟩ := step_cons_cases hinput hs
  · cases hreset
  · exact ⟨_, rfl⟩
  · obtain ⟨r, hr, -⟩ := exec_answers hx
    exact ⟨r, hr⟩

/-- Settles O42: the invariant keeps the fault away, and a step takes its one input; a restarted scan holds an empty
buffer; from reset the invariant holds all along. -/
theorem everyWordCompletesWithOneResponse : Obligations.EveryWordCompletesWithOneResponse := by
  refine ⟨fun s w rest h hinput => ?_, fun s h => ?_, fun inputs => (stateInv_resetWith inputs).runFor_completes⟩
  · obtain ⟨t, hs⟩ := h.step_safe
    obtain ⟨r, hr⟩ := step_command_rsp hinput hs
    exact ⟨t, r, hs, hr, (step_input hs).trans (congrArg List.tail hinput)⟩
  · obtain ⟨empty, -⟩ := (tracks_hunt rfl).1 (tracks_respond_restartScan (s := { s with fbase := h }) .ok 0)
    exact ⟨_, exec_scanStart h s, rfl, rfl, empty⟩

end Sys2Proof.Machine
end

section
/-! SUPPORT. The positions `POS` and `FSTART`, which no verdict depends on (70_reset_and_hazards.md R205 item 4). -/

namespace Sys2Proof.Machine

variable {b : Byte} {i : Instr} {s t : State}

/-- A branch of `SCAN_BYTE` looks at neither position, except that the one that completes the marker sets `FSTART` from
`POS`. -/
theorem ByteStep.with_positions (step : ByteStep b s t) (p f : Word) :
    ∃ p' f', ByteStep b { s with pos := p, fstart := f } { t with pos := p', fstart := f' } := by
  cases step with
  | huntFirst hst h0 => exact ⟨_, _, .huntFirst hst h0⟩
  | huntOther hst h0 => exact ⟨_, _, .huntOther hst h0⟩
  | sync1Second hst h1 => exact ⟨_, _, .sync1Second hst h1⟩
  | sync1First hst h1 h0 => exact ⟨_, _, .sync1First hst h1 h0⟩
  | sync1Other hst h1 h0 => exact ⟨_, _, .sync1Other hst h1 h0⟩
  | hdrReservedHigh hst hi => exact ⟨_, _, .hdrReservedHigh hst hi⟩
  | hdrReservedLow hst hi => exact ⟨_, _, .hdrReservedLow hst hi⟩
  | hdrLengthHigh hst hi => exact ⟨_, _, .hdrLengthHigh hst hi⟩
  | hdrLengthZero hst hi hl => exact ⟨_, _, .hdrLengthZero hst hi hl⟩
  | hdrLengthPositive hst hi hl => exact ⟨_, _, .hdrLengthPositive hst hi hl⟩
  | hdrOutside hst hi => exact ⟨_, _, .hdrOutside hst hi⟩
  | payloadLast hst hp hl => exact ⟨_, _, .payloadLast hst hp hl⟩
  | payloadMore hst hp hl => exact ⟨_, _, .payloadMore hst hp hl⟩
  | checkMatch hst hc => exact ⟨_, _, .checkMatch hst hc⟩
  | checkMismatch hst hc => exact ⟨_, _, .checkMismatch hst hc⟩
  | final hst => exact ⟨_, _, .final hst⟩

/-- A number names at most the register whose number it is. -/
theorem eq_regNumber_of_regOfNumber {k : Half} {n : RegName} (h : regOfNumber k = some n) : k = regNumber n := by
  unfold regOfNumber at h
  split at h
  all_goals cases h
  all_goals exact BitVec.eq_of_toNat_eq ‹_›

theorem readReg_with_positions {n : RegName} (hpos : n ≠ .POS) (hfstart : n ≠ .FSTART) (s : State) (p f : Word) :
    readReg n { s with pos := p, fstart := f } = readReg n s := by
  cases n with
  | POS => exact absurd rfl hpos
  | FSTART => exact absurd rfl hfstart
  | _ => rfl

/-- Settles O37: a byte by `ByteStep.with_positions`, a read of a register by its name, and no other command looks at
`POS` or `FSTART`. -/
theorem positionsNeverAffectAVerdict : Obligations.PositionsNeverAffectAVerdict := by
  intro i s t p f hx
  cases i with
  | scanByte b =>
    obtain ⟨p', f', step⟩ := (ByteStep.of_exec hx).with_positions p f
    exact ⟨_, step.exec_eq, rfl, fun _ _ => rfl⟩
  | payloadRead k =>
    rw [exec_payloadRead] at hx ⊢
    cases hx
    refine ⟨_, rfl, ?_⟩
    split
    · exact ⟨rfl, fun _ _ => rfl⟩
    · exact ⟨rfl, fun _ _ => rfl⟩
  | regRead k =>
    cases hk : regOfNumber k with
    | none =>
      cases (exec_regRead_none hk s).symm.trans hx
      exact ⟨_, exec_regRead_none hk _, rfl, fun _ _ => rfl⟩
    | some n =>
      cases (exec_regRead_some hk s).symm.trans hx
      refine ⟨_, exec_regRead_some hk _, rfl, fun hpos hfstart => ?_⟩
      obtain rfl := eq_regNumber_of_regOfNumber hk
      rw [readReg_with_positions (by rintro rfl; exact hpos rfl) (by rintro rfl; exact hfstart rfl)]
      rfl
  | nop | crcInit | crcByte | setSync | scanStart => cases hx; exact ⟨_, rfl, rfl, fun _ _ => rfl⟩

end Sys2Proof.Machine
end

section
/-! SUPPORT. Reset (70_reset_and_hazards.md R200, R202), and runs from reset with any bytes in `PBUF` (10_state.md R38). -/

namespace Sys2Proof.Machine

variable {n : Nat} {s s' t : State}

/-! ### The state after reset -/

/-- A reset step takes its one input, whatever word stands beside it, and leaves the reset state. -/
theorem step_reset {c : Option CmdWord} {rest : List HostInput} (h : s.input = .reset c :: rest) :
    step s = .next (resetWith rest) := step_cons h

/-- Settles O1. -/
theorem resetWinsOverAPresentedCommand : Obligations.ResetWinsOverAPresentedCommand :=
  fun _ _ _ hinput => ⟨_, step_reset hinput, rfl, rfl, rfl⟩

theorem statusWord_hunt : statusWord .hunt = 0x000 := by decide

theorem answer_status_hunt (hst : s.st = .hunt) : answer (.regRead 0x0001) s = some ⟨.ok, 0x000⟩ := by
  rw [← statusWord_hunt, ← hst]
  exact answer_regRead .STATUS s

/-- Settles O2: either state is `resetWith` of some inputs, whose registers are the list's values and whose scan, in HUNT,
exposes no payload. -/
theorem resetLeavesTheListedRegisterValues : Obligations.ResetLeavesTheListedRegisterValues := by
  refine ⟨fun s hs => ?_, fun u c rest hinput => ⟨_, step_reset hinput⟩⟩
  obtain ⟨rest, rfl⟩ : ∃ rest, s = resetWith rest := by
    obtain rfl | ⟨u, c, rest, hinput, hs⟩ := hs
    · exact ⟨[], rfl⟩
    · cases (step_reset hinput).symm.trans hs
      exact ⟨rest, rfl⟩
  exact ⟨rfl, rfl, rfl, rfl, rfl, rfl, rfl, rfl, rfl, rfl, rfl, rfl, answer_status_hunt rfl,
    noPayload_of_st_ne nofun, exec_scanStart 0x0000 _⟩

/-! ### Runs that differ in unread bytes of `PBUF` -/

theorem SameButUnreadPbuf.input_eq (same : SameButUnreadPbuf s s') : s'.input = s.input := by rw [same.1]

theorem SameButUnreadPbuf.rsp_eq (same : SameButUnreadPbuf s s') : s'.rsp = s.rsp := by rw [same.1]

theorem SameButUnreadPbuf.with_input_rsp (same : SameButUnreadPbuf s s') (q : List HostInput) (r : Option Response) :
    SameButUnreadPbuf { s with input := q, rsp := r } { s' with input := q, rsp := r } :=
  ⟨congrArg (fun u : State => { u with input := q, rsp := r }) same.1, same.2⟩

/-- A step takes two such states to two such states: a command by `unreadPbufBytesAreNeverObserved`; a reset, an illegal
word and the idle step look at no byte of `PBUF`. -/
theorem SameButUnreadPbuf.exists_step (same : SameButUnreadPbuf s s') (hinv : StateInv s) (hinv' : StateInv s')
    (hs : step s = .next t) : ∃ t', step s' = .next t' ∧ SameButUnreadPbuf t t' := by
  have input_eq := same.input_eq
  obtain ⟨hinput, rfl⟩ | ⟨c, rest, hinput, rfl⟩ | ⟨w, rest, e, hinput, hd, rfl⟩ | ⟨w, rest, i, hinput, hd, hx⟩ :=
    step_cases hs
  all_goals rw [hinput] at input_eq
  · exact ⟨_, step_nil input_eq, congrArg idle same.1, same.2⟩
  · exact ⟨_, step_reset input_eq, rfl, fun _ _ => rfl⟩
  · exact ⟨_, (step_command input_eq).trans (acceptWord_error hd _), same.with_input_rsp _ _⟩
  · obtain ⟨t', hx', same', -⟩ := unreadPbufBytesAreNeverObserved i _ { s' with input := rest } t
      (hinv.with_crc_input_rsp s.crc rest s.rsp) (hinv'.with_crc_input_rsp s'.crc rest s'.rsp)
      (by rw [← same.rsp_eq]; exact same.with_input_rsp rest s'.rsp) hx
    exact ⟨t', (step_command input_eq).trans ((acceptWord_ok hd _).trans hx'), same'⟩

/-- So does a run, which keeps the invariant. -/
theorem SameButUnreadPbuf.exists_runFor (same : SameButUnreadPbuf s s') (hinv : StateInv s) (hinv' : StateInv s')
    (hrun : runFor n s = .next t) : ∃ t', runFor n s' = .next t' ∧ SameButUnreadPbuf t t' ∧ StateInv t := by
  induction n generalizing s s' with
  | zero => cases hrun; exact ⟨s', rfl, same, hinv⟩
  | succ n ih =>
    obtain ⟨u, hu, hrun⟩ := runFor_succ hrun
    obtain ⟨u', hu', same'⟩ := same.exists_step hinv hinv' hu
    rw [runFor_step hu']
    exact ih same' (everyStepKeepsTheInvariant s u hinv hu) (everyStepKeepsTheInvariant s' u' hinv' hu') hrun

/-- A validated frame is made of bytes below `PCNT`. -/
theorem SameButUnreadPbuf.validatedFrame_eq (same : SameButUnreadPbuf s s') (hinv : StateInv s) :
    validatedFrame s' = validatedFrame s := by
  obtain ⟨hs', agree⟩ := same
  generalize s'.pbuf = m at hs' agree
  subst hs'
  by_cases hst : s.st = .doneFound
  · have hpcnt : s.pcnt = s.flen := hinv.complete (.inr (isFinal_iff.2 (.inl hst)))
    rw [hpcnt] at agree
    have hread : (List.range s.flen.toNat).map s.pbuf.read = (List.range s.flen.toNat).map m.read :=
      List.map_congr_left fun k hk => agree k (List.mem_range.1 hk)
    simp [validatedFrame, memRead, hst, hread]
  · simp [validatedFrame, hst]

/-- The reset state meets the invariant with any bytes in `PBUF`. -/
theorem stateInv_resetWith_pbuf (inputs : List HostInput) {m : Memory} (hm : m.wf = true) :
    StateInv { resetWith inputs with pbuf := m } :=
  (stateInv_hunt rfl).2 ⟨rfl, ⟨rfl, rfl, rfl, rfl, rfl, rfl⟩, hm⟩

/-- After reset `PCNT` is 0, so every byte of `PBUF` is unread. -/
theorem sameButUnreadPbuf_resetWith (inputs : List HostInput) (m m' : Memory) :
    SameButUnreadPbuf { resetWith inputs with pbuf := m } { resetWith inputs with pbuf := m' } := ⟨rfl, nofun⟩

/-- Settles O39: after reset all of `PBUF` is unread, a run leaves two states that differ in unread bytes alone, and
neither the response, nor a register, nor the validated frame shows one. -/
theorem pbufContentsAtResetAreNeverObserved : Obligations.PbufContentsAtResetAreNeverObserved := by
  intro inputs m m' n hm hm'
  have hinv := stateInv_resetWith_pbuf inputs hm
  obtain ⟨t, hrun⟩ := hinv.runFor_completes n
  obtain ⟨t', hrun', same, hinv_t⟩ :=
    (sameButUnreadPbuf_resetWith inputs m m').exists_runFor hinv (stateInv_resetWith_pbuf inputs hm') hrun
  exact ⟨t, t', hrun, hrun', same.rsp_eq, same.1, same.validatedFrame_eq hinv_t⟩

end Sys2Proof.Machine
end
